-- ==== Sys2Proof/Word.lean ====
section
/-! DEFINITION. The bit types of the decoder block: bytes of the buffer, 16-bit values, and the fields of
an encoded instruction that the spec treats as bits (00_scope.md R8, 30_encoding.md R49 and R50). -/

namespace Sys2Proof

/-- A byte of the buffer: 8 bits, bit 0 the least significant (R8). -/
abbrev Byte := BitVec 8

/-- A 16-bit value: displacement, direct address or immediate ("processor word", R7). -/
abbrev Word := BitVec 16

/-- A 3-bit key into the register table or the effective-address-base table (R28, R29). -/
abbrev Key := BitVec 3

/-- The 2-bit mode field `mod` (R50). -/
abbrev ModeField := BitVec 2

end Sys2Proof
end

