-- ==== Sys2Proof/Config.lean ====
section
/-! DEFINITION. The parameters and constants of 00_scope.md R7 that are numbers. The spec leaves no value
free (93_implementation_defined.md: "No behaviour of the block is left as `any value` or `stuck`"), so
there is no opaque constant here. -/

namespace Sys2Proof.Config

/-- `WINDOW_MAX`: the instruction window is at most 6 bytes (R7, R30, R83). -/
def windowMax : Nat := 6

/-- The side condition R7 puts on the open parameter `CURSOR_BITS`: a buffer of `len` bytes fits a cursor
register of `bits` bits. The model keeps the cursor as the natural number R20 makes it and fixes no width:
statements about the built register hold for every `bits` that fits. DESIGN CHOICE (log entry 3). -/
abbrev FitsCursorBits (bits len : Nat) : Prop := len < 2 ^ bits

end Sys2Proof.Config
end

