-- ==== Sys2Proof/Syntax.lean ====
section
/-! DEFINITION. The instructions of spec/opcode_table.json, one constructor per row, with the operand
fields of formats RM, IR and IRM (30_encoding.md R52, R53, R54). -/

namespace Sys2Proof

/-- Operand width, picked by the width bit `w` (R7): 8 bits (w = 0) or 16 bits (w = 1). -/
inductive Width where
  | byte
  | word
  deriving DecidableEq, Repr

/-- The three handler families (R15, R55). -/
inductive Family where
  | rm
  | ir
  | irm
  deriving DecidableEq, Repr

/-- The mnemonics the block prints. There is only `mov` (R81, R86). -/
inductive Mnemonic where
  | mov
  deriving DecidableEq, Repr

/-- The register-or-memory operand as it is encoded by `mod`, `rm` and the extra bytes (R60, R61). -/
inductive Rm where
  /-- mod = 11: a register (R62). -/
  | reg (rm : Key)
  /-- mod = 00, rm = 110: a direct address in two extra bytes (R64). -/
  | direct (addr : Word)
  /-- mod = 00, rm ≠ 110: base registers, no displacement (R63). -/
  | base (rm : Key)
  /-- mod = 01: base registers and one displacement byte (R65). -/
  | disp8 (rm : Key) (disp : Byte)
  /-- mod = 10: base registers and two displacement bytes (R66). -/
  | disp16 (rm : Key) (disp : Word)
  deriving DecidableEq, Repr

/-- One constructor per row of spec/opcode_table.json. The field `ignored` of the two IRM instructions is
`b1[5:3]`, which no meaning reads (R73); it is kept so that encoding loses no bit (log entry 6). -/
inductive Instr where
  /-- `mov r/m8, r8`, lead byte 0x88 (R97). -/
  | movRm8R8 (rm : Rm) (reg : Key)
  /-- `mov r/m16, r16`, lead byte 0x89 (R98). -/
  | movRm16R16 (rm : Rm) (reg : Key)
  /-- `mov r8, r/m8`, lead byte 0x8A (R99). -/
  | movR8Rm8 (reg : Key) (rm : Rm)
  /-- `mov r16, r/m16`, lead byte 0x8B (R100). -/
  | movR16Rm16 (reg : Key) (rm : Rm)
  /-- `mov r8, imm8`, lead bytes 0xB0 to 0xB7 (R104). -/
  | movR8Imm8 (reg : Key) (imm : Byte)
  /-- `mov r16, imm16`, lead bytes 0xB8 to 0xBF (R105). -/
  | movR16Imm16 (reg : Key) (imm : Word)
  /-- `mov r/m8, imm8`, lead byte 0xC6 (R107). -/
  | movRm8Imm8 (ignored : Key) (rm : Rm) (imm : Byte)
  /-- `mov r/m16, imm16`, lead byte 0xC7 (R108). -/
  | movRm16Imm16 (ignored : Key) (rm : Rm) (imm : Word)
  deriving DecidableEq, Repr

end Sys2Proof
end

