-- ==== Sys2Proof/WellFormed.lean ====
section
/-! DEFINITION. Which terms of `Instr` an encoding spells. Every field value of an encoding is legal (R51,
R74); the one term with no encoding is a register-indirect operand with rm = 110 at mod = 00, whose bits
spell the direct address of R64. -/

namespace Sys2Proof

/-- At mod = 00 the key 110 is the direct-address form, so `base 110` is no operand (R63, R64, R75). -/
def Rm.wf : Rm → Bool
  | .base rm => rm != 0b110#3
  | .reg _ => true
  | .direct _ => true
  | .disp8 _ _ => true
  | .disp16 _ _ => true

/-- An instruction is well formed when its register-or-memory operand is. -/
def Instr.wf : Instr → Bool
  | .movRm8R8 rm _ => rm.wf
  | .movRm16R16 rm _ => rm.wf
  | .movR8Rm8 _ rm => rm.wf
  | .movR16Rm16 _ rm => rm.wf
  | .movR8Imm8 _ _ => true
  | .movR16Imm16 _ _ => true
  | .movRm8Imm8 _ rm _ => rm.wf
  | .movRm16Imm16 _ rm _ => rm.wf

end Sys2Proof
end

