-- ==== Sys2Proof/Decode.lean ====
section
/-! DEFINITION. The bit-field extractor, the opcode pattern table and dispatcher, the instruction lengths,
the decoder from bytes to `Instr`, and after it the encoder (30_encoding.md R49 to R75). -/

namespace Sys2Proof

/-! ### Bytes and 16-bit values -/

/-- `le16(lo, hi) = (hi << 8) | lo`: the byte at the lower offset is the low one (R10, R36). -/
def le16 (lo hi : Byte) : Word := hi ++ lo

/-- The byte of a 16-bit value that is stored at the lower offset (R36). -/
def lowByte (v : Word) : Byte := v.extractLsb' 0 8

/-- The byte of a 16-bit value that is stored at the higher offset (R36). -/
def highByte (v : Word) : Byte := v.extractLsb' 8 8

/-- `win[k]`. The decoder asks only for bytes whose presence it has checked (R84), so the value outside the
list is never part of a result. -/
def byteAt (win : List Byte) (k : Nat) : Byte := win.getD k 0#8

/-- `le16(win[k], win[k+1])` (R37). -/
def wordAt (win : List Byte) (k : Nat) : Word := le16 (byteAt win k) (byteAt win (k + 1))

/-! ### The bit-field extractor (R49, R50) -/

/-- The width a width bit stands for. -/
def widthOfBit (w : Bool) : Width := if w then .word else .byte

/-- d, bit 1 of byte 0 (family RM). -/
def dirBit (b0 : Byte) : Bool := b0.getLsbD 1

/-- w of families RM and IRM, bit 0 of byte 0. -/
def widthLow (b0 : Byte) : Width := widthOfBit (b0.getLsbD 0)

/-- w of family IR, bit 3 of byte 0. -/
def widthIR (b0 : Byte) : Width := widthOfBit (b0.getLsbD 3)

/-- reg of family IR, `b0[2:0]`. -/
def regIR (b0 : Byte) : Key := b0.extractLsb' 0 3

/-- mod, `b1[7:6]`. -/
def modOf (b1 : Byte) : ModeField := b1.extractLsb' 6 2

/-- reg of families RM and IRM, `b1[5:3]`. -/
def regOf (b1 : Byte) : Key := b1.extractLsb' 3 3

/-- rm, `b1[2:0]`. -/
def rmOf (b1 : Byte) : Key := b1.extractLsb' 0 3

/-! ### The opcode pattern table and the dispatcher (R55, R56) -/

/-- An opcode pattern: "(bit-width, bit-value, mnemonic, handler)" (R55). -/
structure Pattern where
  width : Nat
  value : Nat
  mnemonic : Mnemonic
  handler : Family
  deriving DecidableEq, Repr

/-- The opcode pattern table, three entries (R55; widths by conflict C1; contents by decision D17, log
entry 20). -/
def patternTable : List Pattern :=
  [⟨7, 0b1100011, .mov, .irm⟩, ⟨6, 0b100010, .mov, .rm⟩, ⟨4, 0b1011, .mov, .ir⟩]

/-- The top `width` bits of byte 0, right-aligned: c7, c6 and c4 of R49. -/
def opcodeCandidate (width : Nat) (b0 : Byte) : Nat := b0.toNat / 2 ^ (8 - width)

/-- The table entry of one width that the candidate of that width matches. -/
def lookupPattern (width : Nat) (b0 : Byte) : Option Pattern :=
  patternTable.find? fun p => p.width == width && p.value == opcodeCandidate width b0

/-- The dispatcher: "try 7-bit, then 6-bit, then 4-bit, and use the first hit" (R56, conflict C5). `none`
is NoMatch. -/
def dispatch (b0 : Byte) : Option Family :=
  (((lookupPattern 7 b0).or (lookupPattern 6 b0)).or (lookupPattern 4 b0)).map (·.handler)

/-! ### Instruction length (R60, R69, R84) -/

/-- `immSize(w) = 1 + w` (R68). -/
def immSize : Width → Nat
  | .byte => 1
  | .word => 2

/-- Extra bytes the r/m operand takes after byte 1 (R60). -/
def extra (mod : ModeField) (rm : Key) : Nat :=
  if mod = 0b11#2 then 0
  else if mod = 0b00#2 then (if rm = 0b110#3 then 2 else 0)
  else if mod = 0b01#2 then 1
  else 2

/-- The bytes that must be present before the full length is known (R84). -/
def minLength (fam : Family) (b0 : Byte) : Nat :=
  match fam with
  | .ir => 1 + immSize (widthIR b0)
  | .rm => 2
  | .irm => 2

/-- The full length, from byte 0 and, in families RM and IRM, byte 1 (R69). -/
def encodedLength (fam : Family) (b0 b1 : Byte) : Nat :=
  match fam with
  | .rm => 2 + extra (modOf b1) (rmOf b1)
  | .ir => 1 + immSize (widthIR b0)
  | .irm => 2 + extra (modOf b1) (rmOf b1) + immSize (widthLow b0)

/-! ### The decoder -/

/-- The r/m operand of a window whose extra bytes start at window offset 2 (R61). -/
def decodeOperand (mod : ModeField) (rm : Key) (win : List Byte) : Rm :=
  if mod = 0b11#2 then .reg rm
  else if mod = 0b00#2 then (if rm = 0b110#3 then .direct (wordAt win 2) else .base rm)
  else if mod = 0b01#2 then .disp8 rm (byteAt win 2)
  else .disp16 rm (wordAt win 2)

/-- Family RM: `100010dw mmrrrbbb [L] [H]` (R52). -/
def decodeRmReg (win : List Byte) : Instr :=
  let b0 := byteAt win 0
  let b1 := byteAt win 1
  let rm := decodeOperand (modOf b1) (rmOf b1) win
  match dirBit b0, widthLow b0 with
  | false, .byte => .movRm8R8 rm (regOf b1)
  | false, .word => .movRm16R16 rm (regOf b1)
  | true, .byte => .movR8Rm8 (regOf b1) rm
  | true, .word => .movR16Rm16 (regOf b1) rm

/-- Family IR: `1011wrrr iiiiiiii [jjjjjjjj]` (R53). -/
def decodeImmReg (win : List Byte) : Instr :=
  let b0 := byteAt win 0
  match widthIR b0 with
  | .byte => .movR8Imm8 (regIR b0) (byteAt win 1)
  | .word => .movR16Imm16 (regIR b0) (wordAt win 1)

/-- Family IRM: `1100011w mmxxxbbb [L] [H] iiiiiiii [jjjjjjjj]` (R54). -/
def decodeImmRm (win : List Byte) : Instr :=
  let b0 := byteAt win 0
  let b1 := byteAt win 1
  let rm := decodeOperand (modOf b1) (rmOf b1) win
  let at_ := 2 + extra (modOf b1) (rmOf b1)
  match widthLow b0 with
  | .byte => .movRm8Imm8 (regOf b1) rm (byteAt win at_)
  | .word => .movRm16Imm16 (regOf b1) rm (wordAt win at_)

/-- The instruction a matched family reads from a window that holds all its bytes. -/
def decodeFamily : Family → List Byte → Instr
  | .rm, win => decodeRmReg win
  | .ir, win => decodeImmReg win
  | .irm, win => decodeImmRm win

/-- Why a list of bytes begins with no instruction. -/
inductive DecodeError where
  /-- There is no byte at all. The step never decodes an empty window (R83). -/
  | noLeadByte
  /-- The lead byte matches no pattern (R71, R110). -/
  | unrecognizedOpcode (b0 : Byte)
  /-- The lead byte matches a family that needs `need` bytes, and fewer are there (R84, R111). -/
  | truncatedInstruction (need : Nat)
  deriving DecidableEq, Repr

/-- The decoder: dispatch on the lead byte, the two presence checks, then the family (R82, R84, R115). Only
the lead byte can be refused; no field is checked for legality (R74). -/
def decode (win : List Byte) : Except DecodeError Instr :=
  match win with
  | [] => .error .noLeadByte
  | b0 :: _ =>
    match dispatch b0 with
    | none => .error (.unrecognizedOpcode b0)
    | some fam =>
      if win.length < minLength fam b0 then .error (.truncatedInstruction (minLength fam b0))
      else if win.length < encodedLength fam b0 (byteAt win 1) then
        .error (.truncatedInstruction (encodedLength fam b0 (byteAt win 1)))
      else .ok (decodeFamily fam win)

/-! ### The encoder -/

/-- mod of an r/m operand (R62 to R66). -/
def Rm.mode : Rm → ModeField
  | .reg _ => 0b11#2
  | .direct _ => 0b00#2
  | .base _ => 0b00#2
  | .disp8 _ _ => 0b01#2
  | .disp16 _ _ => 0b10#2

/-- rm of an r/m operand (R62 to R66). -/
def Rm.key : Rm → Key
  | .reg rm => rm
  | .direct _ => 0b110#3
  | .base rm => rm
  | .disp8 rm _ => rm
  | .disp16 rm _ => rm

/-- The two bytes of a 16-bit field, low byte first (R36). -/
def wordBytes (v : Word) : List Byte := [lowByte v, highByte v]

/-- The displacement or direct-address bytes of an r/m operand. -/
def Rm.extraBytes : Rm → List Byte
  | .reg _ => []
  | .direct addr => wordBytes addr
  | .base _ => []
  | .disp8 _ disp => [disp]
  | .disp16 _ disp => wordBytes disp

/-- The byte `mmrrrbbb` (R52, R54). -/
def modRegRm (mod : ModeField) (reg rm : Key) : Byte := mod ++ reg ++ rm

/-- The addressing bytes of families RM and IRM: `mmrrrbbb`, then the extra bytes. -/
def Rm.bytes (reg : Key) (rm : Rm) : List Byte := modRegRm rm.mode reg rm.key :: rm.extraBytes

/-- The bytes of an instruction, from the lead bytes of spec/opcode_table.json and the formats of R52, R53
and R54. -/
def encode : Instr → List Byte
  | .movRm8R8 rm reg => 0x88#8 :: rm.bytes reg
  | .movRm16R16 rm reg => 0x89#8 :: rm.bytes reg
  | .movR8Rm8 reg rm => 0x8A#8 :: rm.bytes reg
  | .movR16Rm16 reg rm => 0x8B#8 :: rm.bytes reg
  | .movR8Imm8 reg imm => [0b10110#5 ++ reg, imm]
  | .movR16Imm16 reg imm => (0b10111#5 ++ reg) :: wordBytes imm
  | .movRm8Imm8 ignored rm imm => 0xC6#8 :: (rm.bytes ignored ++ [imm])
  | .movRm16Imm16 ignored rm imm => 0xC7#8 :: (rm.bytes ignored ++ wordBytes imm)

/-- Extra bytes of an r/m operand form. -/
def Rm.extra : Rm → Nat
  | .reg _ => 0
  | .direct _ => 2
  | .base _ => 0
  | .disp8 _ _ => 1
  | .disp16 _ _ => 2

/-- The byte count of an instruction (R70). -/
def Instr.length : Instr → Nat
  | .movRm8R8 rm _ => 2 + rm.extra
  | .movRm16R16 rm _ => 2 + rm.extra
  | .movR8Rm8 _ rm => 2 + rm.extra
  | .movR16Rm16 _ rm => 2 + rm.extra
  | .movR8Imm8 _ _ => 2
  | .movR16Imm16 _ _ => 3
  | .movRm8Imm8 _ rm _ => 3 + rm.extra
  | .movRm16Imm16 _ rm _ => 4 + rm.extra

/-! ### Words numbered as spec/opcode_table.json numbers them -/

/-- `n` bytes of `w`, the least significant first: the buffer's own byte order (R36, R37). -/
def bytesOfNat : Nat → Nat → List Byte
  | 0, _ => []
  | n + 1, w => BitVec.ofNat 8 w :: bytesOfNat n (w / 256)

/-- The bytes of a table word of `nbits` bits, every bit above them 0, up to the longest instruction. -/
def tableBytes (nbits w : Nat) : List Byte := bytesOfNat Config.windowMax (w % 2 ^ nbits)

/-- The instruction the decoder reads from a table word, `none` where it refuses. -/
def decodeTableWord (nbits w : Nat) : Option Instr :=
  match decode (tableBytes nbits w) with
  | .ok i => some i
  | .error _ => none

end Sys2Proof
end

