-- ==== Sys2Proof/Machine/State.lean ====
section
/-! DEFINITION. The block's state as plain data, the decoded-instruction record, the reasons a step can
stop, and the state after reset (10_state.md R16 to R32). The block has no registers, flags, modes or
control registers of its own (R16, R17, R18): its state is the byte buffer, the cursor, STATUS, the fault
record and the output. The three tables of R27 are constants that nothing writes; they are definitions
(`patternTable`, `registerTable`, `eaBaseTable`), not fields (log entry 21). -/

namespace Sys2Proof.Machine

/-- The sixteen register names of the register table (R28). They are symbols: no register holds a value
(R16). -/
inductive RegName where
  | al | cl | dl | bl | ah | ch | dh | bh
  | ax | cx | dx | bx | sp | bp | si | di
  deriving DecidableEq, Repr

/-- The size tag of an immediate: none, `byte` or `word` (R59). -/
inductive SizeTag where
  | untagged
  | byte
  | word
  deriving DecidableEq, Repr

/-- An operand of a decoded-instruction record (R59). Values are the mathematical integers of R9. -/
inductive Operand where
  | register (name : RegName)
  /-- `addr` is in 0..65535 (R64). -/
  | directMemory (addr : Nat)
  /-- `secondary` may be empty (R29). -/
  | indexedMemory (primary : RegName) (secondary : Option RegName) (disp : Int)
  | immediate (value : Int) (tag : SizeTag)
  deriving DecidableEq, Repr

/-- The decoded-instruction record (R86), destination before source (conflict C6). -/
structure Record where
  mnemonic : Mnemonic
  dest : Operand
  src : Operand
  length : Nat
  deriving DecidableEq, Repr

/-- An output item (R87). -/
inductive Item where
  | header
  | instr (r : Record)
  deriving DecidableEq, Repr

/-- The run status (R23). -/
inductive Status where
  | run
  | done
  | fault
  deriving DecidableEq, Repr

/-- The fault conditions of the block (R109). These are states of the block, reached by a step that
answers a next state; `Fault` below is the reason a model step has no next state at all. -/
inductive FaultKind where
  | unrecognizedOpcode
  | truncatedInstruction
  /-- Its code is reserved; no step raises it (R112). -/
  | invalidModeOrField
  deriving DecidableEq, Repr

/-- The byte buffer: its length `L`, and the bytes that are not 00 as (offset, byte) pairs in one canonical
form, `Memory.wf` in Ops.lean (R19, log entry 1). -/
structure Memory where
  len : Nat
  cells : List Host.Cell
  deriving DecidableEq, Repr

/-- The block's whole state (R32). -/
structure State where
  /-- The byte buffer and its length `L` (R19). -/
  buf : Memory
  /-- The cursor, a natural number, 0 ≤ cursor ≤ L (R20). -/
  cursor : Nat
  /-- STATUS (R23). -/
  status : Status
  /-- FAULT_CODE (R24, R109). -/
  faultCode : BitVec 2
  /-- FAULT_OFFSET (R24). -/
  faultOffset : Nat
  /-- FAULT_BYTES, 0 to 6 bytes (R24). -/
  faultBytes : List Byte
  /-- FAULT_NEED, 0 to 6 (R24). -/
  faultNeed : Nat
  /-- The append-only output, oldest item first (R25). -/
  output : List Item
  deriving DecidableEq, Repr

/-- Why a step answers no next state. None of these is a fault of the block: those are `FaultKind`. -/
inductive Fault where
  /-- Raised by `step` and by every meaning when STATUS is DONE: "When STATUS is DONE or FAULT the block has
  no step" (R93). Safe: the block keeps its state, and the model claims nothing of it (log entry 4). -/
  | noStepAfterDone
  /-- Raised by `step` and by every meaning when STATUS is FAULT (R93, R116). Safe (log entry 4). -/
  | noStepAfterFault
  /-- Raised by `step` and by every meaning when the cursor lies past the buffer's end, where `MemRead` is
  not defined (R11). R20 and R22 rule such states out, and no run reaches one. Safe (log entry 5). -/
  | cursorOutsideBuffer
  deriving DecidableEq, Repr

/-- Why the model gives an instruction no meaning. -/
inductive Refusal where
  /-- Raised by an arm of `exec` whose instruction has no meaning yet. No arm is left that does. Safe. -/
  | notModelled (mnemonic : String)
  deriving DecidableEq, Repr

/-- The block right after reset with no buffer loaded: every field as R126 and R32 say. The buffer is
"loaded by the host before reset"; with nothing loaded it is empty, L = 0 (log entry 2). -/
def State.reset : State where
  buf := ⟨0, []⟩
  cursor := 0
  status := .run
  faultCode := 0#2
  faultOffset := 0
  faultBytes := []
  faultNeed := 0
  output := [.header]

end Sys2Proof.Machine
end

