-- ==== Sys2Proof/Machine/Operands.lean ====
section
/-! DEFINITION. The operand resolver and the immediate resolver: the register table, the
effective-address-base table, and the record operands the encoded operands stand for (10_state.md R28 and
R29, 30_encoding.md R59 to R68). -/

namespace Sys2Proof.Machine

/-! ### Reading bits as integers (R9) -/

/-- `s8(b)`, in -128..127. -/
def s8 (b : Byte) : Int := b.toInt

/-- `s16(v)`, in -32768..32767. -/
def s16 (v : Word) : Int := v.toInt

/-- `u16(v)`, in 0..65535. -/
def u16 (v : Word) : Nat := v.toNat

/-! ### The constant tables -/

/-- The register table: 3-bit key to (byte name, word name) (R28). Entries 010, 100, 101, 110 and the byte
name of 011 are the spec's general knowledge (GK1). PRESUMED (log entry 18). -/
def registerTable : Vector (RegName × RegName) 8 :=
  #v[(.al, .ax), (.cl, .cx), (.dl, .dx), (.bl, .bx), (.ah, .sp), (.ch, .bp), (.dh, .si), (.bh, .di)]

/-- The effective-address-base table: 3-bit key to (primary, secondary or empty) (R29). Entries other than
001 are the spec's general knowledge (GK2). PRESUMED (log entry 19). -/
def eaBaseTable : Vector (RegName × Option RegName) 8 :=
  #v[(.bx, some .si), (.bx, some .di), (.bp, some .si), (.bp, some .di),
     (.si, none), (.di, none), (.bp, none), (.bx, none)]

/-- `regName(k, w)`: the byte name when w = 0, the word name when w = 1. A 3-bit key always has an entry
(R28, R51). -/
def regName (k : Key) : Width → RegName
  | .byte => (registerTable.get k.toFin).1
  | .word => (registerTable.get k.toFin).2

/-- `eaBase(k)` (R29). -/
def eaBase (k : Key) : RegName × Option RegName := eaBaseTable.get k.toFin

/-! ### Record operands -/

/-- `Register(regName(k, w))`. -/
def regOperand (k : Key) (w : Width) : Operand := .register (regName k w)

/-- `IndexedMemory(p, s, disp)` with `(p, s) = eaBase(k)`. -/
def baseOperand (k : Key) (disp : Int) : Operand := .indexedMemory (eaBase k).1 (eaBase k).2 disp

/-- The operand resolver, one line per addressing mode (R62 to R66). The direct address is read unsigned
(R64, decision D7, log entry 11); both displacement widths are signed. -/
def rmOperand (w : Width) : Rm → Operand
  | .reg k => regOperand k w
  | .direct addr => .directMemory (u16 addr)
  | .base k => baseOperand k 0
  | .disp8 k disp => baseOperand k (s8 disp)
  | .disp16 k disp => baseOperand k (s16 disp)

/-- An 8-bit immediate, read signed at its own width (R68, conflict C2). -/
def immOperand8 (imm : Byte) (tag : SizeTag) : Operand := .immediate (s8 imm) tag

/-- A 16-bit immediate, read signed at its own width (R68, conflict C2). -/
def immOperand16 (imm : Word) (tag : SizeTag) : Operand := .immediate (s16 imm) tag

/-- A record with the one mnemonic there is (R86). -/
def movRecord (dest src : Operand) (length : Nat) : Record := ⟨.mov, dest, src, length⟩

end Sys2Proof.Machine
end

