-- ==== Sys2Proof/Machine/Flags.lean ====
section
/-! DEFINITION. The block has no condition codes and computes no flag (R17). What it reports is STATUS and
the two-bit FAULT_CODE, whose numbering is here (60_exceptions.md R109). -/

namespace Sys2Proof.Machine

/-- FAULT_CODE while no fault has been raised (R109). -/
def noFaultCode : BitVec 2 := 0#2

/-- FAULT_CODE of each fault (R109; the numbering is decision D4, log entry 8). -/
def FaultKind.code : FaultKind → BitVec 2
  | .unrecognizedOpcode => 1#2
  | .truncatedInstruction => 2#2
  | .invalidModeOrField => 3#2

/-- A run ends when STATUS is not RUN (R94). -/
def State.ended (s : State) : Bool := s.status != .run

end Sys2Proof.Machine
end

