-- ==== Sys2Proof/Machine/Ops.lean ====
section
/-! DEFINITION. The named operations: reading the byte buffer, the window, raising a fault, emitting a
record, advancing the cursor, and completing an instruction (20_memory.md, 40_decode_cycle.md,
60_exceptions.md). The block never writes its buffer (R11, R47); the operations that place bytes are the
host's. -/

namespace Sys2Proof.Machine

/-! ### The byte buffer -/

/-- What an offset below `L` that is not listed holds. A buffer's bytes are all loaded by the host, so this
only fixes how a loaded 00 is written down (log entry 1). -/
def Memory.unlisted : Byte := 0#8

/-- The canonical form of a buffer: offsets strictly rising, none at `L` or above, and no listed byte equal
to what an unlisted offset reads as. Equal buffers are then equal data. -/
def Memory.wf (m : Memory) : Bool :=
  decide (m.cells.Pairwise fun c d => c.1 < d.1) &&
    m.cells.all fun c => decide (c.1 < m.len) && c.2 != Memory.unlisted

/-- The byte listed at an offset, else `unlisted`. -/
def lookupCell : List Host.Cell → Nat → Byte
  | [], _ => Memory.unlisted
  | c :: cs, a => if c.1 = a then c.2 else lookupCell cs a

/-- `buf[i]` for an offset i < L (R11, R19). It has no side effect (R41). -/
def Memory.read (m : Memory) (a : Nat) : Byte := lookupCell m.cells a

/-- `MemRead(a, n)`: the bytes at offsets a to a+n-1, "defined only when a+n ≤ L" (R11). -/
def Memory.readRange (m : Memory) (a n : Nat) : Option (List Byte) :=
  if a + n ≤ m.len then some ((List.range n).map fun k => m.read (a + k)) else none

/-- All bytes of the buffer, offsets 0 to L-1 (R19). -/
def Memory.toBytes (m : Memory) : List Byte := (List.range m.len).map m.read

/-- The cells of a list of bytes laid from offset `a` on. -/
def cellsFrom : Nat → List Byte → List Host.Cell
  | _, [] => []
  | a, b :: bs =>
    if b = Memory.unlisted then cellsFrom (a + 1) bs else (a, b) :: cellsFrom (a + 1) bs

/-- The buffer that holds exactly a list of bytes from offset 0 (R19, R42). -/
def Memory.ofBytes (bs : List Byte) : Memory := ⟨bs.length, cellsFrom 0 bs⟩

/-- The cells with one byte put at an offset, in canonical form. -/
def putCell : List Host.Cell → Nat → Byte → List Host.Cell
  | [], a, b => if b = Memory.unlisted then [] else [(a, b)]
  | c :: cs, a, b =>
    if a < c.1 then (if b = Memory.unlisted then c :: cs else (a, b) :: c :: cs)
    else if a = c.1 then (if b = Memory.unlisted then cs else (a, b) :: cs)
    else c :: putCell cs a b

/-- The host's placing of one byte: the buffer grows to hold it. No step of the block does this (R19). -/
def Memory.place (m : Memory) (a : Nat) (b : Byte) : Memory :=
  ⟨max m.len (a + 1), putCell m.cells a b⟩

/-- The host's placing of consecutive bytes. -/
def Memory.placeBytes : Memory → Nat → List Byte → Memory
  | m, _, [] => m
  | m, a, b :: bs => (m.place a b).placeBytes (a + 1) bs

/-! ### The window -/

/-- The instruction window `MemRead(cursor, min(6, L - cursor))` (R30, R83). It is `none` only where the
cursor lies past the end, which R20 rules out. -/
def State.window (s : State) : Option (List Byte) :=
  s.buf.readRange s.cursor (min Config.windowMax (s.buf.len - s.cursor))

/-! ### Effects of a step -/

/-- Raising a fault: the fault record and STATUS are written; the cursor, the output and the buffer stay
(R113, R114). The offset is the current cursor. There is no handler and no return from a fault: the block
leaves it only by the host's reset, `State.assertReset` in HostSide.lean (R116). -/
def State.raise (kind : FaultKind) (bytes : List Byte) (need : Nat) (s : State) : State :=
  { s with
    status := .fault
    faultCode := kind.code
    faultOffset := s.cursor
    faultBytes := bytes
    faultNeed := need }

/-- `emit(Instr(r))`: append exactly one item (R87). -/
def State.emit (r : Record) (s : State) : State := { s with output := s.output ++ [.instr r] }

/-- `cursor <- cursor + n` (R89). -/
def State.advance (n : Nat) (s : State) : State := { s with cursor := s.cursor + n }

/-- The end of a run: STATUS becomes DONE and nothing else changes (R92). -/
def State.markDone (s : State) : State := { s with status := .done }

/-- Run `body` where the block may take a step: STATUS is RUN (R82, R93). -/
def whileRunning (s : State) (body : Host.Outcome State Fault Refusal) :
    Host.Outcome State Fault Refusal :=
  match s.status with
  | .run => body
  | .done => .fault .noStepAfterDone
  | .fault => .fault .noStepAfterFault

/-- Completing an instruction whose record is `r`: the two presence checks of R84 in their order (R115),
then emit and advance (R87, R89). Where the bytes are missing, TruncatedInstruction is raised with the whole
window (R111). `minLen` is the length the first check asks for. -/
def retire (minLen : Nat) (r : Record) (s : State) : Host.Outcome State Fault Refusal :=
  whileRunning s <|
    match s.window with
    | none => .fault .cursorOutsideBuffer
    | some win =>
      if win.length < minLen then .next (s.raise .truncatedInstruction win minLen)
      else if win.length < r.length then .next (s.raise .truncatedInstruction win r.length)
      else .next ((s.emit r).advance r.length)

/-- What a step does with a window that begins no instruction (R82, R110, R111). The empty window arises at
no cursor below L; at one it would be the cursor's fault (R20). -/
def raiseDecodeError (e : DecodeError) (win : List Byte) (s : State) :
    Host.Outcome State Fault Refusal :=
  match e with
  | .noLeadByte => .fault .cursorOutsideBuffer
  | .unrecognizedOpcode b0 => .next (s.raise .unrecognizedOpcode [b0] 0)
  | .truncatedInstruction need => .next (s.raise .truncatedInstruction win need)

/-- The cursor as a built register of `bits` bits holds it (R7, R20). -/
def State.cursorRegister (bits : Nat) (s : State) : BitVec bits := BitVec.ofNat bits s.cursor

/-- FAULT_OFFSET as a built register of `bits` bits holds it (R24). -/
def State.faultOffsetRegister (bits : Nat) (s : State) : BitVec bits :=
  BitVec.ofNat bits s.faultOffset

end Sys2Proof.Machine
end

