-- ==== Sys2Proof/Machine/MovImmReg.lean ====
section
/-! DEFINITION. Family IR: MOV immediate to register (42_mov_imm_reg.md R103 to R105). The immediate has no
size tag, "because the register names the width" (R103). The length is known from byte 0 alone, so the first
presence check asks for all of it (R84). -/

namespace Sys2Proof.Machine

/-- The record of `mov r8, imm8` (R104). -/
def recordMovR8Imm8 (reg : Key) (imm : Byte) : Record :=
  movRecord (regOperand reg .byte) (immOperand8 imm .untagged) 2

/-- The record of `mov r16, imm16` (R105). -/
def recordMovR16Imm16 (reg : Key) (imm : Word) : Record :=
  movRecord (regOperand reg .word) (immOperand16 imm .untagged) 3

/-- `mov r8, imm8` (R104). -/
def execMovR8Imm8 (reg : Key) (imm : Byte) (s : State) : Host.Outcome State Fault Refusal :=
  retire 2 (recordMovR8Imm8 reg imm) s

/-- `mov r16, imm16` (R105). -/
def execMovR16Imm16 (reg : Key) (imm : Word) (s : State) : Host.Outcome State Fault Refusal :=
  retire 3 (recordMovR16Imm16 reg imm) s

end Sys2Proof.Machine
end

