-- ==== Sys2Proof/Machine/MovImmRm.lean ====
section
/-! DEFINITION. Family IRM: MOV immediate to register or memory (43_mov_imm_rm.md R106 to R108). The
immediate always carries a size tag, at mod = 11 too (decision D9, log entry 13), and the field `b1[5:3]` is
not read (R73). -/

namespace Sys2Proof.Machine

/-- The record of `mov r/m8, imm8` (R107). -/
def recordMovRm8Imm8 (_ignored : Key) (rm : Rm) (imm : Byte) : Record :=
  movRecord (rmOperand .byte rm) (immOperand8 imm .byte) (3 + rm.extra)

/-- The record of `mov r/m16, imm16` (R108). -/
def recordMovRm16Imm16 (_ignored : Key) (rm : Rm) (imm : Word) : Record :=
  movRecord (rmOperand .word rm) (immOperand16 imm .word) (4 + rm.extra)

/-- `mov r/m8, imm8` (R107). -/
def execMovRm8Imm8 (ignored : Key) (rm : Rm) (imm : Byte) (s : State) :
    Host.Outcome State Fault Refusal :=
  retire 2 (recordMovRm8Imm8 ignored rm imm) s

/-- `mov r/m16, imm16` (R108). -/
def execMovRm16Imm16 (ignored : Key) (rm : Rm) (imm : Word) (s : State) :
    Host.Outcome State Fault Refusal :=
  retire 2 (recordMovRm16Imm16 ignored rm imm) s

end Sys2Proof.Machine
end

