-- ==== Sys2Proof/Machine/MovRmReg.lean ====
section
/-! DEFINITION. Family RM: MOV register/memory to or from register (41_mov_rm_reg.md R96 to R102). "Decode"
means building the record and taking its length; no data moves (R6). Each meaning raises
TruncatedInstruction where bytes are missing (R84); no flag and no register is written (R16, R17). -/

namespace Sys2Proof.Machine

/-- The record of `mov r/m8, r8`: d = 0, so the reg field is the source (R97). -/
def recordMovRm8R8 (rm : Rm) (reg : Key) : Record :=
  movRecord (rmOperand .byte rm) (regOperand reg .byte) (2 + rm.extra)

/-- The record of `mov r/m16, r16` (R98). -/
def recordMovRm16R16 (rm : Rm) (reg : Key) : Record :=
  movRecord (rmOperand .word rm) (regOperand reg .word) (2 + rm.extra)

/-- The record of `mov r8, r/m8`: d = 1, so the reg field is the destination (R99). -/
def recordMovR8Rm8 (reg : Key) (rm : Rm) : Record :=
  movRecord (regOperand reg .byte) (rmOperand .byte rm) (2 + rm.extra)

/-- The record of `mov r16, r/m16` (R100). -/
def recordMovR16Rm16 (reg : Key) (rm : Rm) : Record :=
  movRecord (regOperand reg .word) (rmOperand .word rm) (2 + rm.extra)

/-- `mov r/m8, r8` (R97). -/
def execMovRm8R8 (rm : Rm) (reg : Key) (s : State) : Host.Outcome State Fault Refusal :=
  retire 2 (recordMovRm8R8 rm reg) s

/-- `mov r/m16, r16` (R98). -/
def execMovRm16R16 (rm : Rm) (reg : Key) (s : State) : Host.Outcome State Fault Refusal :=
  retire 2 (recordMovRm16R16 rm reg) s

/-- `mov r8, r/m8` (R99). -/
def execMovR8Rm8 (reg : Key) (rm : Rm) (s : State) : Host.Outcome State Fault Refusal :=
  retire 2 (recordMovR8Rm8 reg rm) s

/-- `mov r16, r/m16` (R100). -/
def execMovR16Rm16 (reg : Key) (rm : Rm) (s : State) : Host.Outcome State Fault Refusal :=
  retire 2 (recordMovR16Rm16 reg rm) s

end Sys2Proof.Machine
end

