-- ==== Sys2Proof/Machine/Dispatch.lean ====
section
/-! DEFINITION. One arm per instruction of spec/opcode_table.json, each a direct call of its meaning. -/

namespace Sys2Proof.Machine

def exec (i : Instr) (s : State) : Host.Outcome State Fault Refusal :=
  match i with
  -- family RM
  | .movRm8R8 rm reg => Sys2Proof.Machine.execMovRm8R8 rm reg s
  | .movRm16R16 rm reg => Sys2Proof.Machine.execMovRm16R16 rm reg s
  | .movR8Rm8 reg rm => Sys2Proof.Machine.execMovR8Rm8 reg rm s
  | .movR16Rm16 reg rm => Sys2Proof.Machine.execMovR16Rm16 reg rm s
  -- family IR
  | .movR8Imm8 reg imm => Sys2Proof.Machine.execMovR8Imm8 reg imm s
  | .movR16Imm16 reg imm => Sys2Proof.Machine.execMovR16Imm16 reg imm s
  -- family IRM
  | .movRm8Imm8 ignored rm imm => Sys2Proof.Machine.execMovRm8Imm8 ignored rm imm s
  | .movRm16Imm16 ignored rm imm => Sys2Proof.Machine.execMovRm16Imm16 ignored rm imm s

end Sys2Proof.Machine
end

