-- ==== Sys2Proof/Machine/Step.lean ====
section
/-! DEFINITION. One step of the block (40_decode_cycle.md R82), and the placing of an instruction where the
next step fetches it. -/

namespace Sys2Proof.Machine

/-- One step. In RUN it ends the run when the cursor is at L (R92); else it takes the window (R83), decodes
the instruction at its start and runs it, or raises the fault the bytes give (R110, R111). In DONE and FAULT
there is no step (R93). -/
def step (s : State) : Host.Outcome State Fault Refusal :=
  whileRunning s <|
    if s.cursor = s.buf.len then .next s.markDone
    else
      match s.window with
      | none => .fault .cursorOutsideBuffer
      | some win =>
        match decode win with
        | .ok i => exec i s
        | .error e => raiseDecodeError e win s

/-- `s` with a table word's bytes placed at the cursor, as a host that loads a buffer does, and STATUS at
RUN, without which there is no step. The buffer grows where it is too short (log entry 2). -/
def State.withFetchWord (s : State) (nbits w : Nat) : State :=
  { s with buf := s.buf.placeBytes s.cursor (tableBytes nbits w), status := .run }

end Sys2Proof.Machine
end

