-- ==== Sys2Proof/Machine/HostSide.lean ====
section
/-! DEFINITION. What the host may do to the block: load a buffer, assert reset, and read the result of a run
(10_state.md R26, 60_exceptions.md R118, 70_reset_and_hazards.md R126 to R130). None of these is a step of
the block. A load during a run is no move: `State.load` answers `none` there (R26, R131, decision D18, log
entry 22). There is no abort, interrupt or stall. -/

namespace Sys2Proof.Machine

/-- A state with another buffer and its L, and nothing else changed. -/
def State.withBuffer (bs : List Byte) (s : State) : State := { s with buf := Memory.ofBytes bs }

/-- The host loads a byte buffer and sets L. It "must not change it from reset until STATUS ≠ RUN", and the
model "has no such move": in RUN this answers `none` (R26). -/
def State.load (bs : List Byte) (s : State) : Option State :=
  if s.ended then some (s.withBuffer bs) else none

/-- The host asserts reset: everything but the buffer goes to its reset value, in one action, from any
STATUS (R126, R128). -/
def State.assertReset (s : State) : State :=
  { s with
    cursor := 0
    status := .run
    faultCode := noFaultCode
    faultOffset := 0
    faultBytes := []
    faultNeed := 0
    output := [.header] }

/-- The boot order of R130: load the buffer, then assert reset. It answers `none` where the load does. -/
def State.boot (bs : List Byte) (s : State) : Option State := (s.load bs).map State.assertReset

/-- The block right after a reset over the buffer that holds `bs` (R126): what every boot gives, and the state
after the first reset of a block whose buffer was loaded before it (R26, R130; log entry 2). -/
def State.start (bs : List Byte) : State := State.reset.withBuffer bs

/-- Every move by which the host changes the block (R26). Reading is no change. -/
inductive HostMove where
  | load (bs : List Byte)
  | reset
  deriving DecidableEq, Repr

/-- The state a host move gives, `none` where the host has no such move (R26). -/
def State.hostMove (s : State) : HostMove → Option State
  | .load bs => s.load bs
  | .reset => some s.assertReset

/-- The fault record (R24). -/
structure FaultRecord where
  code : BitVec 2
  offset : Nat
  bytes : List Byte
  need : Nat
  deriving DecidableEq, Repr

/-- The observable result of a run: STATUS, output and fault record, "with the final cursor" (R94). -/
structure RunResult where
  status : Status
  output : List Item
  record : FaultRecord
  cursor : Nat
  deriving DecidableEq, Repr

/-- The fault record at its reset values (R32). -/
def noFaultRecord : FaultRecord := ⟨noFaultCode, 0, [], 0⟩

/-- The fault record a state holds. -/
def State.faultRecord (s : State) : FaultRecord :=
  ⟨s.faultCode, s.faultOffset, s.faultBytes, s.faultNeed⟩

/-- What the host reads (R26, R94). -/
def State.result (s : State) : RunResult := ⟨s.status, s.output, s.faultRecord, s.cursor⟩

end Sys2Proof.Machine
end

