-- ==== Sys2Proof/Machine/Reference.lean ====
section
/-! DEFINITION. The spec's own pseudocode over the instruction window, line by line: the resolvers R61 and
R68, the three decode functions R96, R103 and R106, and the step R82. The machine of Step.lean goes through
`Instr`; that the two agree is a statement of Certificates/Slice0/Obligations.lean, not a definition. -/

namespace Sys2Proof.Machine

/-- `resolveRM(mod, rm, w, win)` (R61). -/
def resolveRM (mod : ModeField) (rm : Key) (w : Width) (win : List Byte) : Operand :=
  if mod = 0b11#2 then .register (regName rm w)
  else if mod = 0b00#2 then
    if rm = 0b110#3 then .directMemory (u16 (le16 (byteAt win 2) (byteAt win 3)))
    else .indexedMemory (eaBase rm).1 (eaBase rm).2 0
  else if mod = 0b01#2 then .indexedMemory (eaBase rm).1 (eaBase rm).2 (s8 (byteAt win 2))
  else .indexedMemory (eaBase rm).1 (eaBase rm).2 (s16 (le16 (byteAt win 2) (byteAt win 3)))

/-- `immValue(w, win, k)` (R68). -/
def immValue (w : Width) (win : List Byte) (k : Nat) : Int :=
  match w with
  | .byte => s8 (byteAt win k)
  | .word => s16 (le16 (byteAt win k) (byteAt win (k + 1)))

/-- `decodeRM(win)` (R96). -/
def refDecodeRM (win : List Byte) : Record :=
  let b0 := byteAt win 0
  let b1 := byteAt win 1
  let w := widthLow b0
  let regOp := Operand.register (regName (regOf b1) w)
  let rmOp := resolveRM (modOf b1) (rmOf b1) w win
  if dirBit b0 then ⟨.mov, regOp, rmOp, 2 + extra (modOf b1) (rmOf b1)⟩
  else ⟨.mov, rmOp, regOp, 2 + extra (modOf b1) (rmOf b1)⟩

/-- `decodeIR(win)` (R103). -/
def refDecodeIR (win : List Byte) : Record :=
  let b0 := byteAt win 0
  let w := widthIR b0
  ⟨.mov, .register (regName (regIR b0) w), .immediate (immValue w win 1) .untagged, 1 + immSize w⟩

/-- `decodeIRM(win)` (R106). -/
def refDecodeIRM (win : List Byte) : Record :=
  let b0 := byteAt win 0
  let b1 := byteAt win 1
  let w := widthLow b0
  let e := extra (modOf b1) (rmOf b1)
  let tag := match w with
    | .byte => SizeTag.byte
    | .word => SizeTag.word
  ⟨.mov, resolveRM (modOf b1) (rmOf b1) w win, .immediate (immValue w win (2 + e)) tag,
    2 + e + immSize w⟩

/-- The family's decode function (R82). -/
def refDecode : Family → List Byte → Record
  | .rm, win => refDecodeRM win
  | .ir, win => refDecodeIR win
  | .irm, win => refDecodeIRM win

/-- The window part of the step, from a window that holds a lead byte (R82). -/
def refStepWindow (win : List Byte) (b0 : Byte) (s : State) : State :=
  match dispatch b0 with
  | none => s.raise .unrecognizedOpcode [b0] 0
  | some fam =>
    if win.length < minLength fam b0 then
      s.raise .truncatedInstruction win (minLength fam b0)
    else if win.length < encodedLength fam b0 (byteAt win 1) then
      s.raise .truncatedInstruction win (encodedLength fam b0 (byteAt win 1))
    else
      { s with
        output := s.output ++ [.instr (refDecode fam win)]
        cursor := s.cursor + encodedLength fam b0 (byteAt win 1) }

end Sys2Proof.Machine
end

