-- ==== Sys2Proof/Machine/Render.lean ====
section
/-! DEFINITION. The text a record renders to (30_encoding.md R76 to R81, 40_decode_cycle.md R88). A text is
its list of characters. -/

namespace Sys2Proof.Machine

/-- A text: its characters in order. -/
abbrev Text := List Char

/-- The decimal digit of a number below 10. -/
def digitChar (n : Nat) : Char := Char.ofNat (48 + n)

/-- Decimal digits, most significant first, at most `fuel` of them. -/
def decDigits : Nat → Nat → Text
  | 0, _ => []
  | fuel + 1, n => if n < 10 then [digitChar n] else decDigits fuel (n / 10) ++ [digitChar (n % 10)]

/-- `dec(n)`: decimal with no leading zeros; zero is `0` (R78). A number has at most `n + 1` digits. -/
def dec (n : Nat) : Text := decDigits (n + 1) n

/-- `decs(v)`: a negative value is `-` directly before its magnitude's digits (R78, decision D19, log entry
15). -/
def decs (v : Int) : Text := if v < 0 then '-' :: dec v.natAbs else dec v.natAbs

/-- Register names are lower case (R28). -/
def RegName.text : RegName → Text
  | .al => ['a', 'l'] | .cl => ['c', 'l'] | .dl => ['d', 'l'] | .bl => ['b', 'l']
  | .ah => ['a', 'h'] | .ch => ['c', 'h'] | .dh => ['d', 'h'] | .bh => ['b', 'h']
  | .ax => ['a', 'x'] | .cx => ['c', 'x'] | .dx => ['d', 'x'] | .bx => ['b', 'x']
  | .sp => ['s', 'p'] | .bp => ['b', 'p'] | .si => ['s', 'i'] | .di => ['d', 'i']

/-- The one mnemonic (R81). -/
def mnemonicText : Mnemonic → Text
  | .mov => ['m', 'o', 'v']

/-- The secondary base's term: none when it is empty (R79). -/
def secondaryTerm : Option RegName → Text
  | none => []
  | some r => [' ', '+', ' '] ++ r.text

/-- The displacement's term: none for 0, ` - |disp|` below it, ` + disp` above (R79, R80). -/
def dispTerm (disp : Int) : Text :=
  if 0 < disp then [' ', '+', ' '] ++ dec disp.natAbs
  else if disp < 0 then [' ', '-', ' '] ++ dec disp.natAbs
  else []

/-- The size word of an immediate, with the space after it (R79). -/
def tagText : SizeTag → Text
  | .untagged => []
  | .byte => ['b', 'y', 't', 'e', ' ']
  | .word => ['w', 'o', 'r', 'd', ' ']

/-- `renderOp` (R79). -/
def renderOp : Operand → Text
  | .register n => n.text
  | .directMemory addr => ['['] ++ dec addr ++ [']']
  | .indexedMemory p sec disp => ['['] ++ p.text ++ secondaryTerm sec ++ dispTerm disp ++ [']']
  | .immediate v tag => tagText tag ++ decs v

/-- `renderLine`: mnemonic, one space, destination, a comma, one space, source (R77). -/
def renderLine (r : Record) : Text :=
  mnemonicText r.mnemonic ++ [' '] ++ renderOp r.dest ++ [',', ' '] ++ renderOp r.src

/-- The header line (R76). -/
def headerLine : Text := ['b', 'i', 't', 's', ' ', '1', '6']

/-- `renderItem` (R88). -/
def renderItem : Item → Text
  | .header => headerLine
  | .instr r => renderLine r

/-- LF, the terminator of every line (decision D6, log entry 10). -/
def lineEnd : Text := ['\n']

/-- `text(out)`: the items rendered in order, each followed by LF (R88). -/
def text (out : List Item) : Text := out.flatMap fun x => renderItem x ++ lineEnd

end Sys2Proof.Machine
end

