-- ==== Sys2Proof/Safety.lean ====
section
/-! DEFINITION. The terms statements use: the record of an instruction, the invariant of the block's state,
and the result of a run as a function of the buffer's bytes alone. -/

namespace Sys2Proof.Machine

/-- The record an instruction decodes to. -/
def recordOf : Instr → Record
  | .movRm8R8 rm reg => recordMovRm8R8 rm reg
  | .movRm16R16 rm reg => recordMovRm16R16 rm reg
  | .movR8Rm8 reg rm => recordMovR8Rm8 reg rm
  | .movR16Rm16 reg rm => recordMovR16Rm16 reg rm
  | .movR8Imm8 reg imm => recordMovR8Imm8 reg imm
  | .movR16Imm16 reg imm => recordMovR16Imm16 reg imm
  | .movRm8Imm8 ignored rm imm => recordMovRm8Imm8 ignored rm imm
  | .movRm16Imm16 ignored rm imm => recordMovRm16Imm16 ignored rm imm

/-- The bytes from the cursor to the buffer's end. -/
def State.remaining (s : State) : List Byte := s.buf.toBytes.drop s.cursor

/-- `k` steps, stopping where there is no next state. -/
def runSteps (k : Nat) (s : State) : Host.Outcome State Fault Refusal :=
  Host.Core.run Sys2Proof.core k s

/-! ### Terms of the instruction statements -/

/-- The instruction of family RM that d and w select (R52). -/
def rmRegInstr (d w : BitVec 1) (rm : Rm) (reg : Key) : Instr :=
  if d = 0#1 then (if w = 0#1 then .movRm8R8 rm reg else .movRm16R16 rm reg)
  else (if w = 0#1 then .movR8Rm8 reg rm else .movR16Rm16 reg rm)

/-- A next state in which exactly the fault record and STATUS are written, with TruncatedInstruction at the
cursor (R113). -/
def RaisesTruncated (s : State) (o : Host.Outcome State Fault Refusal) : Prop :=
  ∃ bytes need, o = .next { s with
    status := .fault
    faultCode := FaultKind.truncatedInstruction.code
    faultOffset := s.cursor
    faultBytes := bytes
    faultNeed := need }

/-- The lead bytes whose byte 1 is mod, reg, rm: families RM and IRM (R58). -/
def rmLeadBytes : List Byte := [0x88#8, 0x89#8, 0x8A#8, 0x8B#8, 0xC6#8, 0xC7#8]

/-- The record's r/m operand: the source where d = 1 (0x8A, 0x8B), else the destination. -/
def rmSide (b0 : Byte) (r : Record) : Operand :=
  if b0 = 0x8A#8 ∨ b0 = 0x8B#8 then r.src else r.dest

/-- The record operand the reg field of family RM names: the source when d = 0, else the destination (R96). -/
def regFieldSide (d : BitVec 1) (r : Record) : Operand := if d = 0#1 then r.src else r.dest

/-- The record operand mod and rm of family RM give: the destination when d = 0, else the source (R96). -/
def rmFieldSide (d : BitVec 1) (r : Record) : Operand := if d = 0#1 then r.dest else r.src

/-- The immediate's byte count after the addressing bytes: only family IRM has one (R54). -/
def immBytesOf (b0 : Byte) : Nat :=
  if b0 = 0xC6#8 then 1 else if b0 = 0xC7#8 then 2 else 0

/-! ### Reading text back (R78, R80) -/

/-- The number a list of decimal digits spells. -/
def readDec (ds : Text) : Nat := ds.foldl (fun n c => 10 * n + (c.toNat - 48)) 0

/-- The integer an immediate's text spells: `-` directly before a magnitude's digits, or digits alone (R78). -/
def readInt : Text → Int
  | '-' :: ds => -(readDec ds : Int)
  | ds => readDec ds

/-- The displacement a term spells: sign times magnitude (R80). -/
def readTerm : Text → Option Int
  | [] => some 0
  | ' ' :: '+' :: ' ' :: ds => some (readDec ds)
  | ' ' :: '-' :: ' ' :: ds => some (-(readDec ds : Int))
  | _ => none

/-- The text line a whole list of bytes decodes to, where it begins an instruction. -/
def lineOf (bs : List Byte) : Option Text :=
  match decode bs with
  | .ok i => some (renderLine (recordOf i))
  | .error _ => none

/-! ### The invariant -/

/-- The values an operand may hold (R59, R64, R66, R68). -/
def Operand.InRange : Operand → Prop
  | .register _ => True
  | .directMemory addr => addr ≤ 65535
  | .indexedMemory _ _ disp => -32768 ≤ disp ∧ disp ≤ 32767
  | .immediate v .byte => -128 ≤ v ∧ v ≤ 127
  | .immediate v _ => -32768 ≤ v ∧ v ≤ 32767

/-- No destination is an immediate (R96, R103, R106). -/
def Operand.IsPlace : Operand → Prop
  | .immediate _ _ => False
  | _ => True

/-- A record the block may hold in its output: length 2 to 6, operands in range (R86). -/
def Record.Ok (r : Record) : Prop :=
  2 ≤ r.length ∧ r.length ≤ 6 ∧ r.dest.IsPlace ∧ r.dest.InRange ∧ r.src.InRange

/-- The output is the header and then one record per decoded instruction, and the cursor is the number of
bytes they took (R21, R25, R86). -/
def State.OutputOk (s : State) : Prop :=
  ∃ rs : List Record, s.output = .header :: rs.map .instr ∧ (∀ r ∈ rs, r.Ok) ∧
    (rs.map (·.length)).sum = s.cursor

/-- The fault record of a FAULT state (R109, R110, R111, R113). -/
def State.FaultOk (s : State) : Prop :=
  s.faultOffset = s.cursor ∧
    ((s.faultCode = FaultKind.unrecognizedOpcode.code ∧ s.faultNeed = 0 ∧
        ∃ b0 rest, s.remaining = b0 :: rest ∧ s.faultBytes = [b0] ∧ dispatch b0 = none) ∨
      (s.faultCode = FaultKind.truncatedInstruction.code ∧ s.faultBytes = s.remaining ∧
        1 ≤ s.faultBytes.length ∧ s.faultBytes.length < s.faultNeed ∧ s.faultNeed ≤ 6))

/-- What holds of every state a run reaches. -/
structure State.Inv (s : State) : Prop where
  /-- The buffer keeps its canonical form. -/
  buf_wf : s.buf.wf = true
  /-- 0 ≤ cursor ≤ L (R20, R22). -/
  cursor_le : s.cursor ≤ s.buf.len
  output_ok : s.OutputOk
  /-- While RUN the fault record is at its reset values (R24). -/
  run_record : s.status = .run → s.faultRecord = noFaultRecord
  /-- In DONE the cursor is L and the fault record is at its reset values (R94). -/
  done_end : s.status = .done → s.cursor = s.buf.len ∧ s.faultRecord = noFaultRecord
  fault_record : s.status = .fault → s.FaultOk

/-! ### A run as a function of the buffer's bytes (R14) -/

/-- How a run ends. -/
inductive RunEnd where
  /-- Every byte was decoded (R92). -/
  | done
  | unrecognizedOpcode (offset : Nat) (b0 : Byte)
  | truncatedInstruction (offset : Nat) (bytes : List Byte) (need : Nat)
  /-- The fuel ran out first. -/
  | notEnded
  deriving DecidableEq, Repr

/-- The records and the end of decoding `bytes`, the first of which stands at `offset`, by the spec's own
decode functions (Reference.lean). -/
def disassemble : Nat → Nat → List Byte → List Record × RunEnd
  | 0, _, _ => ([], .notEnded)
  | _ + 1, _, [] => ([], .done)
  | fuel + 1, offset, b0 :: rest =>
    match dispatch b0 with
    | none => ([], .unrecognizedOpcode offset b0)
    | some fam =>
      let bytes := b0 :: rest
      let n := encodedLength fam b0 (byteAt bytes 1)
      if bytes.length < minLength fam b0 then
        ([], .truncatedInstruction offset bytes (minLength fam b0))
      else if bytes.length < n then ([], .truncatedInstruction offset bytes n)
      else
        let tail := disassemble fuel (offset + n) (bytes.drop n)
        (refDecode fam bytes :: tail.1, tail.2)

/-- The result of the run over a buffer (R94): output, STATUS, fault record and final cursor. -/
def resultOf (bytes : List Byte) : RunResult :=
  let d := disassemble (bytes.length + 1) 0 bytes
  let out := Item.header :: d.1.map .instr
  match d.2 with
  | .done => ⟨.done, out, noFaultRecord, bytes.length⟩
  | .unrecognizedOpcode off b0 =>
    ⟨.fault, out, ⟨FaultKind.unrecognizedOpcode.code, off, [b0], 0⟩, off⟩
  | .truncatedInstruction off bs need =>
    ⟨.fault, out, ⟨FaultKind.truncatedInstruction.code, off, bs, need⟩, off⟩
  | .notEnded => ⟨.run, out, noFaultRecord, 0⟩

end Sys2Proof.Machine
end

