-- ==== Sys2Proof/Certificates/Slice0/Obligations.lean ====
section
/-! DEFINITION. The statements for the provers. Each docstring names the rule or the section of the spec it
formalises. Where a clause rests on a decision of the spec's own (D<n> of 92_eei_decisions.md) or of the
model's (a log entry), the docstring says so. -/

open Sys2Proof Sys2Proof.Machine

/-! ### Encoding -/

/-- Decoding the bytes of a well-formed instruction gives it back, whatever follows them (30_encoding.md
section 2). -/
def Obligations.DecodeAgreesWithEncode : Prop :=
  ∀ (i : Instr) (rest : List Byte), i.wf = true → decode (encode i ++ rest) = .ok i

/-- What decodes is well formed, and its encoding is the bytes it was read from (30_encoding.md sections 2
and 6; that IRM's ignored field is kept is the model's choice, log entry 6). -/
def Obligations.EncodeAgreesWithDecode : Prop :=
  ∀ (bs : List Byte) (i : Instr), decode bs = .ok i →
    i.wf = true ∧ i.length ≤ bs.length ∧ encode i = bs.take i.length

/-- R52, format RM: `100010dw mmrrrbbb` and then as many of the low and high byte as mod and rm ask for. -/
def Obligations.FormatRMDecodes : Prop :=
  ∀ (d w : BitVec 1) (mod : ModeField) (reg rm : Key) (lo hi : Byte) (rest : List Byte),
    ∃ op : Rm, op.mode = mod ∧ op.key = rm ∧ op.extraBytes = [lo, hi].take (extra mod rm) ∧
      decode ((0b100010#6 ++ d ++ w) :: (mod ++ reg ++ rm) :: lo :: hi :: rest) =
        .ok (rmRegInstr d w op reg) ∧
      (rmRegInstr d w op reg).length = 2 + extra mod rm ∧
      (extra mod rm = if mod = 0b01#2 then 1
        else if mod = 0b10#2 ∨ (mod = 0b00#2 ∧ rm = 0b110#3) then 2 else 0)

/-- R53, format IR: `1011wrrr iiiiiiii` and, when w = 1, `jjjjjjjj`. -/
def Obligations.FormatIRDecodes : Prop :=
  ∀ (reg : Key) (i j : Byte) (rest : List Byte),
    decode ((0b1011#4 ++ 0#1 ++ reg) :: i :: rest) = .ok (.movR8Imm8 reg i) ∧
    (Instr.movR8Imm8 reg i).length = 2 ∧
    decode ((0b1011#4 ++ 1#1 ++ reg) :: i :: j :: rest) = .ok (.movR16Imm16 reg (le16 i j)) ∧
    (Instr.movR16Imm16 reg (le16 i j)).length = 3

/-- 30_encoding.md section 2, format IRM: `1100011w mmxxxbbb`, the extra bytes exactly as in format RM, then
the immediate, low byte first, of 1 byte when w = 0 and 2 when w = 1. That every xxx decodes is the spec's
decision D10 (log entry 16); that the decoded term keeps xxx is the model's choice (log entry 6). -/
def Obligations.FormatIRMDecodes : Prop :=
  ∀ (mod : ModeField) (x rm : Key) (lo hi i j : Byte) (rest : List Byte),
    ∃ op : Rm, op.mode = mod ∧ op.key = rm ∧ op.extraBytes = [lo, hi].take (extra mod rm) ∧
      decode ((0b1100011#7 ++ 0#1) :: (mod ++ x ++ rm) ::
        (([lo, hi].take (extra mod rm)) ++ i :: rest)) = .ok (.movRm8Imm8 x op i) ∧
      (Instr.movRm8Imm8 x op i).length = 2 + extra mod rm + 1 ∧
      decode ((0b1100011#7 ++ 1#1) :: (mod ++ x ++ rm) ::
        (([lo, hi].take (extra mod rm)) ++ i :: j :: rest)) = .ok (.movRm16Imm16 x op (le16 i j)) ∧
      (Instr.movRm16Imm16 x op (le16 i j)).length = 2 + extra mod rm + 2

/-- One word of each row of spec/opcode_table.json, written out bit by bit from its format. -/
def Obligations.WordsOfEachRowDecode : Prop :=
  decode [0b10001000#8, 0b01_101_110#8, 0b00000000#8] = .ok (.movRm8R8 (.disp8 6#3 0#8) 5#3) ∧
  decode [0b10001001#8, 0b11_011_001#8] = .ok (.movRm16R16 (.reg 1#3) 3#3) ∧
  decode [0b10001010#8, 0b10_000_000#8, 0b10000111#8, 0b00010011#8] =
    .ok (.movR8Rm8 0#3 (.disp16 0#3 0x1387#16)) ∧
  decode [0b10001011#8, 0b00_110_110#8, 0b00000000#8, 0b10000000#8] =
    .ok (.movR16Rm16 6#3 (.direct 0x8000#16)) ∧
  decode [0b1011_0_001#8, 0b00001100#8] = .ok (.movR8Imm8 1#3 12#8) ∧
  decode [0b1011_1_101#8, 0b01101111#8, 0b00001111#8] = .ok (.movR16Imm16 5#3 0x0F6F#16) ∧
  decode [0b11000110#8, 0b00_111_111#8, 0b00000101#8] = .ok (.movRm8Imm8 7#3 (.base 7#3) 5#8) ∧
  decode [0b11000111#8, 0b10_000_011#8, 0b00010000#8, 0b00100111#8, 0b00101100#8, 0b00000001#8] =
    .ok (.movRm16Imm16 0#3 (.disp16 3#3 0x2710#16) 0x012C#16)

/-- R50: mod is the top 2 bits of byte 1, reg the middle 3, rm the bottom 3. -/
def Obligations.Byte1Fields : Prop :=
  ∀ b1 : Byte, (modOf b1).toNat = b1.toNat / 64 ∧ (regOf b1).toNat = b1.toNat / 8 % 8 ∧
    (rmOf b1).toNat = b1.toNat % 8

/-- R56: the 7-bit candidate is tried first, then the 6-bit, then the 4-bit; the first hit wins. -/
def Obligations.DispatchTriesSevenSixFour : Prop :=
  (∀ b0 : Byte, dispatch b0 =
    if b0.extractLsb' 1 7 = 0b1100011#7 then some .irm
    else if b0.extractLsb' 2 6 = 0b100010#6 then some .rm
    else if b0.extractLsb' 4 4 = 0b1011#4 then some .ir
    else none) ∧
  (∀ (b0 : Byte) (rest : List Byte), dispatch b0 = none →
    decode (b0 :: rest) = .error (.unrecognizedOpcode b0))

/-- 30_encoding.md section 3 (the spec derives R57 and R58 from its table, decision D17): exactly these 22
lead bytes select a handler, and no lead byte matches two patterns. -/
def Obligations.AcceptedLeadBytes : Prop :=
  (∀ b0 : Byte, dispatch b0 ≠ none ↔
    b0 ∈ [0x88#8, 0x89#8, 0x8A#8, 0x8B#8, 0xB0#8, 0xB1#8, 0xB2#8, 0xB3#8, 0xB4#8, 0xB5#8, 0xB6#8,
      0xB7#8, 0xB8#8, 0xB9#8, 0xBA#8, 0xBB#8, 0xBC#8, 0xBD#8, 0xBE#8, 0xBF#8, 0xC6#8, 0xC7#8]) ∧
  (∀ b0 : Byte, ∀ p ∈ patternTable, ∀ q ∈ patternTable,
    p.value = opcodeCandidate p.width b0 → q.value = opcodeCandidate q.width b0 → p = q)

/-- 30_encoding.md section 6 (R69 and R70 are derived by the spec): the length is the one byte 0 and byte 1
give, by family 2 to 4, 2 or 3, and 3 to 6. -/
def Obligations.LengthFromFields : Prop :=
  ∀ (b0 : Byte) (rest : List Byte) (i : Instr), decode (b0 :: rest) = .ok i →
    ∃ fam, dispatch b0 = some fam ∧ i.length = encodedLength fam b0 (byteAt rest 0) ∧
      (fam = .rm → 2 ≤ i.length ∧ i.length ≤ 4) ∧
      (fam = .ir → i.length = 2 + (b0.toNat / 8) % 2) ∧
      (fam = .irm → 3 ≤ i.length ∧ i.length ≤ 6)

/-- R85: decoding reads only the instruction's own bytes. -/
def Obligations.DecodeReadsOnlyItsBytes : Prop :=
  ∀ (bs : List Byte) (i : Instr), decode bs = .ok i →
    ∀ other : List Byte, other.take i.length = bs.take i.length → decode other = .ok i

/-- R74: "Every combination of d, w, mod, reg and rm under a matched lead byte decodes to an instruction." -/
def Obligations.EveryFieldCombinationDecodes : Prop :=
  ∀ (b0 : Byte) (rest : List Byte), dispatch b0 ≠ none → 5 ≤ rest.length →
    ∃ i, decode (b0 :: rest) = .ok i

/-! ### The step -/

/-- 40_decode_cycle.md section 1: when the window decodes to an instruction, the step is that instruction's
meaning on the same state; the meaning itself emits and advances. -/
def Obligations.StepRunsDecodedInstruction : Prop :=
  ∀ (s : State) (win : List Byte) (i : Instr), s.status = .run → s.cursor < s.buf.len →
    s.window = some win → decode win = .ok i → step s = exec i s

/-- 40_decode_cycle.md section 1: when the buffer holds a well-formed instruction's bytes at the cursor, the
step is that instruction's meaning. -/
def Obligations.StepRunsInstructionInBuffer : Prop :=
  ∀ (s : State) (i : Instr) (rest : List Byte), s.status = .run → i.wf = true →
    s.remaining = encode i ++ rest → step s = exec i s

/-- 40_decode_cycle.md section 1: the machine's step, which goes through `Instr`, is the spec's pseudocode over
the window, with the decode functions of the three families. In it the spec's own decisions are the size
tag of family IRM (D9, log entry 13), the two length checks and their need (D11, log entry 14), the unsigned
direct address (D7, log entry 11) and the field family IRM ignores (D10, log entry 16). -/
def Obligations.StepFollowsDecodeCycle : Prop :=
  ∀ s : State, s.status = .run →
    (s.cursor = s.buf.len → step s = .next { s with status := .done }) ∧
    (s.cursor < s.buf.len → ∃ b0 rest,
      s.buf.readRange s.cursor (min 6 (s.buf.len - s.cursor)) = some (b0 :: rest) ∧
      step s = .next (refStepWindow (b0 :: rest) b0 s))

/-! ### The instructions -/

/-- 41_mov_rm_reg.md section 2, `mov r/m8, r8`: its bytes, its record and next state where its bytes are there
(nothing but output and cursor changes), and TruncatedInstruction where they are not. The truncation clause is
about exec in states where step never runs it, cursor = L included (log entry 24, DEDUCED); that the output
stays there is the spec's decision D12 (log entry 14). resolveRM reads a direct address unsigned, decision D7
(log entry 11). -/
def Obligations.MovRm8R8Result : Prop :=
  ∀ (rm : Rm) (reg : Key) (s : State), rm.wf = true → s.status = .run → s.cursor ≤ s.buf.len →
    ∀ win n, win = encode (.movRm8R8 rm reg) → n = 2 + extra rm.mode rm.key →
      win = 0b10001000#8 :: (rm.mode ++ reg ++ rm.key) :: rm.extraBytes ∧ win.length = n ∧
      (s.cursor + n ≤ s.buf.len → exec (.movRm8R8 rm reg) s = .next { s with
        output := s.output ++ [.instr ⟨.mov, resolveRM rm.mode rm.key .byte win,
          .register (regName reg .byte), n⟩]
        cursor := s.cursor + n }) ∧
      (s.buf.len < s.cursor + n → RaisesTruncated s (exec (.movRm8R8 rm reg) s))

/-- 41_mov_rm_reg.md section 2, `mov r/m16, r16`: its bytes, record, next state and truncation. The truncation
clause is about exec in states where step never runs it, cursor = L included (log entry 24, DEDUCED); that the
output stays there is the spec's decision D12 (log entry 14). resolveRM reads a direct address unsigned,
decision D7 (log entry 11). -/
def Obligations.MovRm16R16Result : Prop :=
  ∀ (rm : Rm) (reg : Key) (s : State), rm.wf = true → s.status = .run → s.cursor ≤ s.buf.len →
    ∀ win n, win = encode (.movRm16R16 rm reg) → n = 2 + extra rm.mode rm.key →
      win = 0b10001001#8 :: (rm.mode ++ reg ++ rm.key) :: rm.extraBytes ∧ win.length = n ∧
      (s.cursor + n ≤ s.buf.len → exec (.movRm16R16 rm reg) s = .next { s with
        output := s.output ++ [.instr ⟨.mov, resolveRM rm.mode rm.key .word win,
          .register (regName reg .word), n⟩]
        cursor := s.cursor + n }) ∧
      (s.buf.len < s.cursor + n → RaisesTruncated s (exec (.movRm16R16 rm reg) s))

/-- 41_mov_rm_reg.md section 2, `mov r8, r/m8`: its bytes, record, next state and truncation. The truncation
clause is about exec in states where step never runs it, cursor = L included (log entry 24, DEDUCED); that the
output stays there is the spec's decision D12 (log entry 14). resolveRM reads a direct address unsigned,
decision D7 (log entry 11). -/
def Obligations.MovR8Rm8Result : Prop :=
  ∀ (reg : Key) (rm : Rm) (s : State), rm.wf = true → s.status = .run → s.cursor ≤ s.buf.len →
    ∀ win n, win = encode (.movR8Rm8 reg rm) → n = 2 + extra rm.mode rm.key →
      win = 0b10001010#8 :: (rm.mode ++ reg ++ rm.key) :: rm.extraBytes ∧ win.length = n ∧
      (s.cursor + n ≤ s.buf.len → exec (.movR8Rm8 reg rm) s = .next { s with
        output := s.output ++ [.instr ⟨.mov, .register (regName reg .byte),
          resolveRM rm.mode rm.key .byte win, n⟩]
        cursor := s.cursor + n }) ∧
      (s.buf.len < s.cursor + n → RaisesTruncated s (exec (.movR8Rm8 reg rm) s))

/-- 41_mov_rm_reg.md section 2, `mov r16, r/m16`: its bytes, record, next state and truncation. The truncation
clause is about exec in states where step never runs it, cursor = L included (log entry 24, DEDUCED); that the
output stays there is the spec's decision D12 (log entry 14). resolveRM reads a direct address unsigned,
decision D7 (log entry 11). -/
def Obligations.MovR16Rm16Result : Prop :=
  ∀ (reg : Key) (rm : Rm) (s : State), rm.wf = true → s.status = .run → s.cursor ≤ s.buf.len →
    ∀ win n, win = encode (.movR16Rm16 reg rm) → n = 2 + extra rm.mode rm.key →
      win = 0b10001011#8 :: (rm.mode ++ reg ++ rm.key) :: rm.extraBytes ∧ win.length = n ∧
      (s.cursor + n ≤ s.buf.len → exec (.movR16Rm16 reg rm) s = .next { s with
        output := s.output ++ [.instr ⟨.mov, .register (regName reg .word),
          resolveRM rm.mode rm.key .word win, n⟩]
        cursor := s.cursor + n }) ∧
      (s.buf.len < s.cursor + n → RaisesTruncated s (exec (.movR16Rm16 reg rm) s))

/-- 42_mov_imm_reg.md section 2, `mov r8, imm8`: lead bytes 0xB0 to 0xB7 name al, cl, dl, bl, ah, ch, dh, bh
in order; the names dl, bl, ah, ch and dh are log entry 18 (PRESUMED). The truncation clause is about exec in
states where step never runs it, cursor = L included (log entry 24, DEDUCED); that the output stays there is
the spec's decision D12 (log entry 14). FAULT_NEED is decision D11 (log entry 14). -/
def Obligations.MovR8Imm8Result : Prop :=
  ∀ (reg : Key) (imm : Byte) (s : State), s.status = .run → s.cursor ≤ s.buf.len →
    ∃ name : RegName,
      [RegName.al, .cl, .dl, .bl, .ah, .ch, .dh, .bh][reg.toNat]? = some name ∧
      encode (.movR8Imm8 reg imm) = [BitVec.ofNat 8 (0xB0 + reg.toNat), imm] ∧
      (s.cursor + 2 ≤ s.buf.len → exec (.movR8Imm8 reg imm) s = .next { s with
        output := s.output ++ [.instr ⟨.mov, .register name, .immediate imm.toInt .untagged, 2⟩]
        cursor := s.cursor + 2 }) ∧
      (s.buf.len < s.cursor + 2 → ∃ bytes, exec (.movR8Imm8 reg imm) s = .next { s with
        status := .fault
        faultCode := FaultKind.truncatedInstruction.code
        faultOffset := s.cursor
        faultBytes := bytes
        faultNeed := 2 })

/-- 42_mov_imm_reg.md section 2, `mov r16, imm16`: lead bytes 0xB8 to 0xBF name ax, cx, dx, bx, sp, bp, si, di
in order, and the immediate is signed and low byte first; the names dx, sp, bp and si are log entry 18
(PRESUMED). The truncation clause is about exec in states where step never runs it, cursor = L included (log
entry 24, DEDUCED); that the output stays there is the spec's decision D12 (log entry 14). FAULT_NEED is
decision D11 (log entry 14). -/
def Obligations.MovR16Imm16Result : Prop :=
  ∀ (reg : Key) (lo hi : Byte) (s : State), s.status = .run → s.cursor ≤ s.buf.len →
    ∃ name : RegName,
      [RegName.ax, .cx, .dx, .bx, .sp, .bp, .si, .di][reg.toNat]? = some name ∧
      encode (.movR16Imm16 reg (le16 lo hi)) = [BitVec.ofNat 8 (0xB8 + reg.toNat), lo, hi] ∧
      (s.cursor + 3 ≤ s.buf.len → exec (.movR16Imm16 reg (le16 lo hi)) s = .next { s with
        output := s.output ++
          [.instr ⟨.mov, .register name, .immediate (hi.toInt * 256 + lo.toNat) .untagged, 3⟩]
        cursor := s.cursor + 3 }) ∧
      (s.buf.len < s.cursor + 3 → ∃ bytes, exec (.movR16Imm16 reg (le16 lo hi)) s = .next { s with
        status := .fault
        faultCode := FaultKind.truncatedInstruction.code
        faultOffset := s.cursor
        faultBytes := bytes
        faultNeed := 3 })

/-- 43_mov_imm_rm.md section 2, `mov r/m8, imm8`: the immediate follows the addressing bytes and is tagged
`byte` at every mod. That it is tagged at every mod is the spec's decision D9 (log entry 13); that the term
and its encoding keep the ignored field x is the model's choice (log entry 6). The truncation clause is about
exec in states where step never runs it, cursor = L included (log entry 24, DEDUCED); that the output stays
there is the spec's decision D12 (log entry 14). resolveRM reads a direct address unsigned, decision D7 (log
entry 11). -/
def Obligations.MovRm8Imm8Result : Prop :=
  ∀ (x : Key) (rm : Rm) (imm : Byte) (s : State), rm.wf = true → s.status = .run →
    s.cursor ≤ s.buf.len →
    ∀ win e, win = encode (.movRm8Imm8 x rm imm) → e = extra rm.mode rm.key →
      win = 0b11000110#8 :: (rm.mode ++ x ++ rm.key) :: (rm.extraBytes ++ [imm]) ∧
      win.length = 3 + e ∧
      (s.cursor + (3 + e) ≤ s.buf.len → exec (.movRm8Imm8 x rm imm) s = .next { s with
        output := s.output ++ [.instr ⟨.mov, resolveRM rm.mode rm.key .byte win,
          .immediate (s8 (byteAt win (2 + e))) .byte, 3 + e⟩]
        cursor := s.cursor + (3 + e) }) ∧
      (s.buf.len < s.cursor + (3 + e) → RaisesTruncated s (exec (.movRm8Imm8 x rm imm) s))

/-- 43_mov_imm_rm.md section 2, `mov r/m16, imm16`: the immediate is low byte first and tagged `word` at every
mod. That it is tagged at every mod is the spec's decision D9 (log entry 13); that the term and its encoding
keep the ignored field x is the model's choice (log entry 6). The truncation clause is about exec in states
where step never runs it, cursor = L included (log entry 24, DEDUCED); that the output stays there is the
spec's decision D12 (log entry 14). resolveRM reads a direct address unsigned, decision D7 (log entry 11). -/
def Obligations.MovRm16Imm16Result : Prop :=
  ∀ (x : Key) (rm : Rm) (imm : Word) (s : State), rm.wf = true → s.status = .run →
    s.cursor ≤ s.buf.len →
    ∀ win e, win = encode (.movRm16Imm16 x rm imm) → e = extra rm.mode rm.key →
      win = 0b11000111#8 :: (rm.mode ++ x ++ rm.key) ::
        (rm.extraBytes ++ [lowByte imm, highByte imm]) ∧
      win.length = 4 + e ∧
      (s.cursor + (4 + e) ≤ s.buf.len → exec (.movRm16Imm16 x rm imm) s = .next { s with
        output := s.output ++ [.instr ⟨.mov, resolveRM rm.mode rm.key .word win,
          .immediate (s16 (le16 (byteAt win (2 + e)) (byteAt win (3 + e)))) .word, 4 + e⟩]
        cursor := s.cursor + (4 + e) }) ∧
      (s.buf.len < s.cursor + (4 + e) → RaisesTruncated s (exec (.movRm16Imm16 x rm imm) s))

/-- The frame of all eight instructions (10_state.md sections 1 to 5): no byte of the buffer changes; one that
completes writes only cursor and output; one that faults writes only STATUS and the fault record. The fault
arm is about exec in states where step never runs it, cursor = L included (log entry 24, DEDUCED); that the
output stays there is the spec's decision D12 (log entry 14). -/
def Obligations.MovFrame : Prop :=
  ∀ (i : Instr) (s t : State), exec i s = .next t →
    (∀ a, t.buf.read a = s.buf.read a) ∧ t.buf.len = s.buf.len ∧
    ((t.status = .run ∧ t.faultRecord = s.faultRecord ∧ t.cursor = s.cursor + i.length ∧
        t.output = s.output ++ [.instr (recordOf i)]) ∨
      (t.status = .fault ∧ t.cursor = s.cursor ∧ t.output = s.output ∧
        s.buf.len < s.cursor + i.length))

/-- The two constant tables of 10_state.md section 6, and the sixteen names as they render, lower case. The
spec's own decisions D15 and D16 (log entries 18 and 19). -/
def Obligations.ConstantTables : Prop :=
  (List.ofFn fun k : Fin 8 => regName (BitVec.ofFin k) .byte) =
    [.al, .cl, .dl, .bl, .ah, .ch, .dh, .bh] ∧
  (List.ofFn fun k : Fin 8 => regName (BitVec.ofFin k) .word) =
    [.ax, .cx, .dx, .bx, .sp, .bp, .si, .di] ∧
  (List.ofFn fun k : Fin 8 => eaBase (BitVec.ofFin k)) =
    [(.bx, some .si), (.bx, some .di), (.bp, some .si), (.bp, some .di),
      (.si, none), (.di, none), (.bp, none), (.bx, none)] ∧
  (List.ofFn fun k : Fin 8 => (regName (BitVec.ofFin k) .byte).text) =
    ["al".toList, "cl".toList, "dl".toList, "bl".toList, "ah".toList, "ch".toList, "dh".toList,
      "bh".toList] ∧
  (List.ofFn fun k : Fin 8 => (regName (BitVec.ofFin k) .word).text) =
    ["ax".toList, "cx".toList, "dx".toList, "bx".toList, "sp".toList, "bp".toList, "si".toList,
      "di".toList]

/-! ### Addressing modes -/

/-- R62: at mod = 11 the r/m operand of every family that has one is the register rm names at width w; the
mode takes no extra byte, at rm = 110 too. -/
def Obligations.RegisterDirectMode : Prop :=
  ∀ (s : State) (b0 b1 : Byte) (rest : List Byte), s.status = .run → b0 ∈ rmLeadBytes →
    s.remaining = b0 :: b1 :: rest → modOf b1 = 0b11#2 → immBytesOf b0 ≤ rest.length →
    ∃ r : Record, step s = .next ((s.emit r).advance r.length) ∧
      r.length = 2 + immBytesOf b0 ∧
      rmSide b0 r = .register (regName (rmOf b1) (widthLow b0))

/-- R63: at mod = 00 with rm ≠ 110 the r/m operand is the base registers with displacement 0; no extra byte,
and it renders as `[p]` or `[p + s]`. -/
def Obligations.MemoryModeNoDisplacement : Prop :=
  ∀ (s : State) (b0 b1 : Byte) (rest : List Byte), s.status = .run → b0 ∈ rmLeadBytes →
    s.remaining = b0 :: b1 :: rest → modOf b1 = 0b00#2 → rmOf b1 ≠ 0b110#3 →
    immBytesOf b0 ≤ rest.length →
    ∃ (r : Record) (p : RegName) (sec : Option RegName), eaBase (rmOf b1) = (p, sec) ∧
      step s = .next ((s.emit r).advance r.length) ∧
      r.length = 2 + immBytesOf b0 ∧
      rmSide b0 r = .indexedMemory p sec 0 ∧
      renderOp (rmSide b0 r) =
        ['['] ++ p.text ++ (match sec with
          | none => []
          | some x => [' ', '+', ' '] ++ x.text) ++ [']']

/-- 30_encoding.md section 4: at mod = 00 with rm = 110 the r/m operand is the direct address in the two
extra bytes, low byte first. That it is unsigned is the spec's own decision D7 (log entry 11). -/
def Obligations.DirectAddressMode : Prop :=
  ∀ (s : State) (b0 b1 lo hi : Byte) (rest : List Byte), s.status = .run → b0 ∈ rmLeadBytes →
    s.remaining = b0 :: b1 :: lo :: hi :: rest → modOf b1 = 0b00#2 → rmOf b1 = 0b110#3 →
    immBytesOf b0 ≤ rest.length →
    ∃ r : Record, step s = .next ((s.emit r).advance r.length) ∧
      r.length = 4 + immBytesOf b0 ∧
      rmSide b0 r = .directMemory (hi.toNat * 256 + lo.toNat)

/-- R65: at mod = 01 the r/m operand is the base registers with the signed byte at window offset 2, for
every rm including 110; one extra byte. -/
def Obligations.MemoryModeDisp8 : Prop :=
  ∀ (s : State) (b0 b1 disp : Byte) (rest : List Byte), s.status = .run → b0 ∈ rmLeadBytes →
    s.remaining = b0 :: b1 :: disp :: rest → modOf b1 = 0b01#2 → immBytesOf b0 ≤ rest.length →
    ∃ r : Record, step s = .next ((s.emit r).advance r.length) ∧
      r.length = 3 + immBytesOf b0 ∧
      rmSide b0 r = .indexedMemory (eaBase (rmOf b1)).1 (eaBase (rmOf b1)).2 disp.toInt ∧
      -128 ≤ disp.toInt ∧ disp.toInt ≤ 127

/-- R66: at mod = 10 the r/m operand is the base registers with the signed 16-bit value at window offset 2,
low byte first, for every rm including 110; two extra bytes. -/
def Obligations.MemoryModeDisp16 : Prop :=
  ∀ (s : State) (b0 b1 lo hi : Byte) (rest : List Byte), s.status = .run → b0 ∈ rmLeadBytes →
    s.remaining = b0 :: b1 :: lo :: hi :: rest → modOf b1 = 0b10#2 →
    immBytesOf b0 ≤ rest.length →
    ∃ (r : Record) (disp : Int), step s = .next ((s.emit r).advance r.length) ∧
      r.length = 4 + immBytesOf b0 ∧
      rmSide b0 r = .indexedMemory (eaBase (rmOf b1)).1 (eaBase (rmOf b1)).2 disp ∧
      disp = hi.toInt * 256 + lo.toNat ∧ -32768 ≤ disp ∧ disp ≤ 32767

/-! ### Faults and the end of a run -/

/-- R110: UnrecognizedOpcode is raised exactly when the lead byte matches no pattern, on the lead byte alone,
and records that byte and the offset. -/
def Obligations.UnrecognizedOpcodeExactly : Prop :=
  ∀ (s : State) (b0 : Byte) (rest : List Byte), s.status = .run → s.remaining = b0 :: rest →
    (dispatch b0 = none → ∃ t, step s = .next t ∧ t.status = .fault ∧
      t.faultCode = FaultKind.unrecognizedOpcode.code ∧ t.faultOffset = s.cursor ∧
      t.faultBytes = [b0]) ∧
    (∀ t, step s = .next t → t.status = .fault →
      t.faultCode = FaultKind.unrecognizedOpcode.code → dispatch b0 = none)

/-- R111: TruncatedInstruction is raised when the lead byte matches a family and fewer bytes are left than it
needs; FAULT_BYTES are then every byte from the cursor to the buffer's end, 1 to 5 of them. -/
def Obligations.TruncatedInstructionRaised : Prop :=
  ∀ (s : State) (b0 : Byte) (rest : List Byte) (fam : Family), s.status = .run →
    s.remaining = b0 :: rest → dispatch b0 = some fam →
    (b0 :: rest).length < minLength fam b0 ∨
      (2 ≤ (b0 :: rest).length ∧ (b0 :: rest).length < encodedLength fam b0 (byteAt rest 0)) →
    ∃ t, step s = .next t ∧ t.status = .fault ∧
      t.faultCode = FaultKind.truncatedInstruction.code ∧ t.faultBytes = b0 :: rest ∧
      1 ≤ t.faultBytes.length ∧ t.faultBytes.length ≤ 5

/-- 60_exceptions.md section 3 and 40_decode_cycle.md section 1: the order of the checks and FAULT_NEED, the
spec's own decision D11 (log entry 14). -/
def Obligations.FaultNeedAndPriority : Prop :=
  ∀ (s t : State) (b0 : Byte) (rest : List Byte), s.status = .run → s.remaining = b0 :: rest →
    step s = .next t → t.status = .fault →
    (dispatch b0 = none ∧ t.faultCode = FaultKind.unrecognizedOpcode.code ∧ t.faultNeed = 0) ∨
    (∃ fam, dispatch b0 = some fam ∧ t.faultCode = FaultKind.truncatedInstruction.code ∧
      ((rest.length + 1 < minLength fam b0 ∧ t.faultNeed = minLength fam b0) ∨
        (minLength fam b0 ≤ rest.length + 1 ∧ fam ≠ .ir ∧
          rest.length + 1 < encodedLength fam b0 (byteAt rest 0) ∧
          t.faultNeed = encodedLength fam b0 (byteAt rest 0))))

/-- 60_exceptions.md section 2 (the spec derives R114; what stays is its decision D12, log entry 14): a
faulting step writes the fault record and STATUS and nothing else. -/
def Obligations.FaultsArePrecise : Prop :=
  ∀ s t : State, step s = .next t → t.status = .fault →
    t = { s with
      status := .fault
      faultCode := t.faultCode
      faultOffset := s.cursor
      faultBytes := t.faultBytes
      faultNeed := t.faultNeed }

/-- R112: no step and no instruction raises InvalidModeOrField. -/
def Obligations.InvalidModeOrFieldNeverRaised : Prop :=
  (∀ s t : State, step s = .next t → t.faultCode = FaultKind.invalidModeOrField.code →
    s.faultCode = FaultKind.invalidModeOrField.code ∧ t.status ≠ .fault) ∧
  (∀ (i : Instr) (s t : State), exec i s = .next t →
    t.faultCode = FaultKind.invalidModeOrField.code →
    s.faultCode = FaultKind.invalidModeOrField.code ∧ t.status ≠ .fault)

/-- 40_decode_cycle.md section 4: in DONE and FAULT there is no step (the spec's decision D13). That the
model answers a named fault there is its own choice (log entry 4). -/
def Obligations.NoStepAfterTheEnd : Prop :=
  ∀ s : State,
    (s.status = .done → step s = .fault .noStepAfterDone ∧
      ∀ i, exec i s = .fault .noStepAfterDone) ∧
    (s.status = .fault → step s = .fault .noStepAfterFault ∧
      ∀ i, exec i s = .fault .noStepAfterFault)

/-- R92: a step that starts in RUN with the cursor at L sets STATUS to DONE and changes nothing else, this is
the only way to DONE, and a DONE run has decoded every byte of the buffer exactly once. -/
def Obligations.DoneExactlyAtTheEnd : Prop :=
  (∀ s : State, s.status = .run → s.cursor = s.buf.len →
    step s = .next { s with status := .done }) ∧
  (∀ s t : State, step s = .next t → t.status = .done → s.cursor = s.buf.len) ∧
  (∀ (i : Instr) (s t : State), exec i s = .next t → t.status ≠ .done) ∧
  (∀ s : State, s.Inv → s.status = .done →
    ∃ rs : List Record, s.output = .header :: rs.map .instr ∧
      (rs.map (·.length)).sum = s.buf.len)

/-- 10_state.md section 3 and 40_decode_cycle.md section 2: a successful decode step appends exactly one
record and advances the cursor by that record's length, 2 to 6; a fault and the end of the run leave cursor
and output; reset sets the cursor to 0 and the output to the header. That a fault leaves the output is the
spec's decision D12 (log entry 14), the header at reset its decision D5 (log entry 9). -/
def Obligations.CursorWrittenOnlyByAdvance : Prop :=
  (∀ s t : State, step s = .next t → t.status = .run →
    ∃ r : Record, t.output = s.output ++ [.instr r] ∧ t.cursor = s.cursor + r.length ∧
      2 ≤ r.length ∧ r.length ≤ 6) ∧
  (∀ s t : State, step s = .next t → t.status ≠ .run →
    t.cursor = s.cursor ∧ t.output = s.output) ∧
  (∀ s : State, s.assertReset.cursor = 0 ∧ s.assertReset.output = [.header])

/-! ### Whole runs -/

/-- 10_state.md section 5: over any number of steps the output is only appended to, by records, at most one a
step (append-only; that records are the primary output is the spec's decision D20). That a faulting step
leaves the output is the spec's decision D12 (log entry 14). -/
def Obligations.OutputAppendOnly : Prop :=
  ∀ (k : Nat) (s t : State), runSteps k s = .next t →
    ∃ rs : List Record, t.output = s.output ++ rs.map .instr ∧ rs.length ≤ k

/-- R19: over any number of steps no byte of the buffer and not its length change. -/
def Obligations.BufferNeverWritten : Prop :=
  ∀ (k : Nat) (s t : State), runSteps k s = .next t →
    t.buf.len = s.buf.len ∧ (∀ a, t.buf.read a = s.buf.read a) ∧ t.buf = s.buf

/-- 20_memory.md section 4 and 40_decode_cycle.md section 1: a step reads no byte outside the window. Two
blocks that agree on the window and on everything but the buffer take the same step. -/
def Obligations.StepReadsOnlyTheWindow : Prop :=
  ∀ s t s' : State, s.result = t.result → s.window = t.window →
    (s.cursor = s.buf.len ↔ t.cursor = t.buf.len) → step s = .next s' →
    ∃ t', step t = .next t' ∧ t'.result = s'.result ∧ t'.buf = t.buf

/-- 30_encoding.md section 7: in family IRM `b1[5:3]` is not read (the spec's decision D10, log entry 16). Two
blocks whose buffers differ only in that field emit the same record and advance alike. For a truncated
instruction FAULT_NEED and the output kept are its decisions D11 and D12 (log entry 14). -/
def Obligations.IgnoredFieldNotRead : Prop :=
  ∀ (s t s' : State) (b0 b1 c1 : Byte) (rest : List Byte), b0 = 0xC6#8 ∨ b0 = 0xC7#8 →
    s.remaining = b0 :: b1 :: rest → t.remaining = b0 :: c1 :: rest →
    modOf b1 = modOf c1 → rmOf b1 = rmOf c1 → s.result = t.result → step s = .next s' →
    ∃ t', step t = .next t' ∧ t'.output = s'.output ∧ t'.cursor = s'.cursor ∧
      t'.status = s'.status ∧ t'.faultNeed = s'.faultNeed

/-- 41_mov_rm_reg.md section 3 (derived by the spec): at mod = 11 a register-to-register move has two
encodings, with d = 0 and reg, rm and with d = 1 and rm, reg, that decode to different instructions of the
same effect. -/
def Obligations.RegisterMoveAliases : Prop :=
  ∀ (w : BitVec 1) (a b : Key), ∃ i j : Instr, i ≠ j ∧
    decode [0b100010#6 ++ 0#1 ++ w, 0b11#2 ++ a ++ b] = .ok i ∧
    decode [0b100010#6 ++ 1#1 ++ w, 0b11#2 ++ b ++ a] = .ok j ∧
    recordOf i = recordOf j ∧ ∀ s, exec i s = exec j s

/-- 41_mov_rm_reg.md section 3 (R102 is derived by the spec): in family RM, at d = 0 and at d = 1, the width
does not change the length; it picks the name of the reg operand, always, and of the r/m operand at
mod = 11; a memory r/m operand and its text it does not change. -/
def Obligations.WidthOnlyNamesRegisters : Prop :=
  ∀ (d : BitVec 1) (rm : Rm) (reg : Key) (r8 r16 : Record),
    r8 = recordOf (rmRegInstr d 0#1 rm reg) → r16 = recordOf (rmRegInstr d 1#1 rm reg) →
    r8.length = r16.length ∧
    regFieldSide d r8 = .register (regName reg .byte) ∧
    regFieldSide d r16 = .register (regName reg .word) ∧ regName reg .byte ≠ regName reg .word ∧
    (∀ k, rm = .reg k → rmFieldSide d r8 = .register (regName k .byte) ∧
      rmFieldSide d r16 = .register (regName k .word) ∧ regName k .byte ≠ regName k .word) ∧
    (rm.mode ≠ 0b11#2 → rmFieldSide d r8 = rmFieldSide d r16 ∧
      renderOp (rmFieldSide d r8) = renderOp (rmFieldSide d r16))

/-- The invariant holds at reset. The reset values of STATUS, the fault record and the output are the spec's
decisions D3 and D5 (log entries 7 and 9); the empty buffer is the model's choice (log entry 2). -/
def Obligations.ResetHoldsInvariant : Prop := State.reset.Inv

/-- The boot order of 70_reset_and_hazards.md section 2, and reset at any time. From every state in which no
run goes on the host can load any buffer and assert reset, and the invariant then holds with that buffer's
bytes ahead; in RUN it cannot load; reset gives the invariant from any state whose buffer is in canonical
form, during a run too. The host's moves are the spec's decision D18 (log entry 22); the reset values of
STATUS, the fault record and the output are its decisions D3 and D5 (log entries 7 and 9). -/
def Obligations.BootHoldsInvariant : Prop :=
  (∀ (bs : List Byte) (s : State), s.status ≠ .run →
    ∃ u, s.boot bs = some u ∧ u = State.start bs ∧ u.Inv ∧ u.status = .run ∧ u.remaining = bs) ∧
  (∀ (bs : List Byte) (s : State), s.status = .run → s.load bs = none ∧ s.boot bs = none) ∧
  (∀ s : State, s.buf.wf = true → s.assertReset.Inv)

/-- Every step keeps the invariant (10_state.md R20, R22, R24 and R25; 60_exceptions.md sections 1 and 2).
STATUS and the fault record are the spec's decision D3 (log entry 7), the header D5 (log entry 9), FAULT_NEED
and the output kept after a fault D11 and D12 (log entry 14), the range of a direct address D7 (log entry 11);
the buffer's canonical form is the model's choice (log entry 1). -/
def Obligations.StepKeepsInvariant : Prop :=
  ∀ s t : State, s.Inv → step s = .next t → t.Inv

/-- 40_decode_cycle.md section 3 and 70_reset_and_hazards.md section 3 (derived by the spec): from every
state in RUN with L - cursor bytes left, the run ends within (L - cursor) / 2 + 1 steps. -/
def Obligations.RunEndsWithinBound : Prop :=
  ∀ s : State, s.status = .run → s.cursor ≤ s.buf.len →
    ∃ k t, k ≤ (s.buf.len - s.cursor) / 2 + 1 ∧ runSteps k s = .next t ∧ t.status ≠ .run

/-- 40_decode_cycle.md section 4 (derived by the spec): a buffer of supported encodings laid end to end is
decoded whole, one record an instruction in order, and the run ends DONE with cursor = L, whatever state the
host boots the block from. The header before the records is its decision D5 (log entry 9), the host's moves
D18 (log entry 22). -/
def Obligations.SupportedBufferEndsDone : Prop :=
  ∀ (is : List Instr) (s u : State), (∀ i ∈ is, i.wf = true) →
    s.boot (is.flatMap encode) = some u →
    ∃ t, runSteps (is.length + 1) u = .next t ∧ t.status = .done ∧
      t.cursor = t.buf.len ∧ t.output = .header :: is.map fun i => .instr (recordOf i)

/-- 00_scope.md section 6: the result of a run is one function of the buffer's bytes, from whatever state the
host boots the block. That the function is resultOf, the spec's own pseudocode applied to the bytes, rests on
its decisions D5 (the header at reset, log entry 9), D11 and D12 (FAULT_NEED and the output kept, log entry
14), D9 (the tag of family IRM, log entry 13), D7 (the unsigned direct address, log entry 11) and D10 (the
ignored field, log entry 16); that a boot is a load outside RUN and a reset is D18 (log entry 22). -/
def Obligations.RunIsFunctionOfBytes : Prop :=
  ∀ (bs : List Byte) (s u : State), s.boot bs = some u →
    ∃ k t, runSteps k u = .next t ∧ t.status ≠ .run ∧ t.result = resultOf bs

/-- 10_state.md sections 3 and 4: a register of any width that fits L holds the cursor and FAULT_OFFSET
exactly, and no advance wraps. That the width is left open is the model's choice (log entry 3). -/
def Obligations.CursorFitsItsRegister : Prop :=
  ∀ (bits : Nat) (s t : State), Config.FitsCursorBits bits s.buf.len → s.Inv → step s = .next t →
    (t.cursorRegister bits).toNat = t.cursor ∧
    (t.faultOffsetRegister bits).toNat = t.faultOffset ∧
    (s.cursorRegister bits).toNat ≤ (t.cursorRegister bits).toNat

/-- The canonical form of a buffer (the model's choice, log entry 1): buffers of one length that read the
same at every offset are equal data, and every list of bytes is some buffer's. -/
def Obligations.EqualBuffersAreEqualData : Prop :=
  (∀ m n : Memory, m.wf = true → n.wf = true → m.len = n.len →
    (∀ a, a < m.len → m.read a = n.read a) → m = n) ∧
  (∀ bs : List Byte, ∃ m : Memory, m.wf = true ∧ m.len = bs.length ∧
    ∀ a, m.read a = bs.getD a 0#8)

/-- 70_reset_and_hazards.md section 1 and 10_state.md section 5 (the values of STATUS, the fault record and
the header are the spec's decisions D3 and D5, log entries 7 and 9; the host's moves are its decision D18, log
entry 22): reset, from any STATUS, sets every field but the buffer. In RUN it is the host's only move, so no
host move changes the buffer during a run; a load, outside RUN, changes the buffer and nothing else. That
State.reset has an empty buffer is the model's choice (log entry 2). -/
def Obligations.ResetSetsEverythingButTheBuffer : Prop :=
  (∀ s : State, s.assertReset = ⟨s.buf, 0, .run, 0#2, 0, [], 0, [.header]⟩) ∧
  State.reset = ⟨⟨0, []⟩, 0, .run, 0#2, 0, [], 0, [.header]⟩ ∧
  (∀ s : State, s.hostMove .reset = some s.assertReset) ∧
  (∀ (m : HostMove) (s t : State), s.status = .run → s.hostMove m = some t →
    m = .reset ∧ t.buf = s.buf) ∧
  (∀ (bs : List Byte) (s : State), s.status ≠ .run →
    s.hostMove (.load bs) = some { s with buf := Memory.ofBytes bs })

/-- 70_reset_and_hazards.md section 1 (derived by the spec; decision D5): over the empty buffer the run is one
step, and the text is the header line alone. -/
def Obligations.EmptyBufferRun : Prop :=
  ∃ t, step State.reset = .next t ∧ t.status = .done ∧ t.cursor = 0 ∧
    text t.output = ['b', 'i', 't', 's', ' ', '1', '6', '\n']

/-! ### Text -/

/-- R79: how an operand renders, clause by clause, over the texts of names and numbers, which ConstantTables
and DecimalText state. -/
def Obligations.OperandRendering : Prop :=
  (∀ n : RegName, renderOp (.register n) = n.text) ∧
  (∀ a : Nat, renderOp (.directMemory a) = ['['] ++ dec a ++ [']']) ∧
  (∀ (p : RegName) (sec : Option RegName) (disp : Int), renderOp (.indexedMemory p sec disp) =
    ['['] ++ p.text
      ++ (match sec with
        | none => []
        | some x => [' ', '+', ' '] ++ x.text)
      ++ (if disp > 0 then [' ', '+', ' '] ++ dec disp.toNat
          else if disp < 0 then [' ', '-', ' '] ++ dec (-disp).toNat
          else [])
      ++ [']']) ∧
  (∀ v : Int, renderOp (.immediate v .untagged) = decs v ∧
    renderOp (.immediate v .byte) = ['b', 'y', 't', 'e', ' '] ++ decs v ∧
    renderOp (.immediate v .word) = ['w', 'o', 'r', 'd', ' '] ++ decs v)

/-- 30_encoding.md section 8: the text of every state that meets the invariant opens with the header line, and
no other item is a header. That the line ends with LF is the spec's decision D6 (log entry 10); that the
header is there in every such state, of an empty or failing run too, is its decision D5 (log entry 9). -/
def Obligations.HeaderExactlyOnceAndFirst : Prop :=
  ∀ s : State, s.Inv →
    (∃ body, text s.output = ['b', 'i', 't', 's', ' ', '1', '6'] ++ ['\n'] ++ body) ∧
    s.output.count .header = 1 ∧ s.output.head? = some .header

/-- 30_encoding.md section 8 and 40_decode_cycle.md section 2 (that a line ends with LF is the spec's decision
D6, log entry 10): a step that decodes an instruction adds exactly one line to the text, the mnemonic, the
destination and the source of its record; any other step leaves the text. That a faulting step leaves the text
is the spec's decision D12 (log entry 14). -/
def Obligations.EachDecodeStepAddsOneLine : Prop :=
  ∀ s t : State, step s = .next t →
    (t.status = .run → ∃ r : Record, t.output = s.output ++ [.instr r] ∧
      text t.output = text s.output ++ (['m', 'o', 'v', ' '] ++ renderOp r.dest ++ [',', ' '] ++
        renderOp r.src) ++ ['\n']) ∧
    (t.status ≠ .run → text t.output = text s.output)

/-- 30_encoding.md section 8 (derived by the spec): reading a rendered displacement term back gives the same
signed integer, and only 0 has no term. -/
def Obligations.DisplacementReadsBack : Prop :=
  ∀ disp : Int, readTerm (dispTerm disp) = some disp ∧ (dispTerm disp = [] ↔ disp = 0)

/-- 30_encoding.md section 8 (the spec's decision D19, log entry 15): a number's text is decimal digits with
no leading zero, spells that number, and is no other number's text. A signed number's text is its
magnitude's, with `-` directly before it when the number is negative and no sign else; it reads back. -/
def Obligations.DecimalText : Prop :=
  (∀ n : Nat, readDec (dec n) = n ∧ dec n ≠ [] ∧ (∀ c ∈ dec n, '0' ≤ c ∧ c ≤ '9') ∧
    ((dec n).head? = some '0' → n = 0 ∧ dec n = ['0']) ∧ (∀ m, dec m = dec n → m = n)) ∧
  (∀ v : Int, (v < 0 → decs v = ['-'] ++ dec (-v).toNat) ∧ (0 ≤ v → decs v = dec v.toNat) ∧
    readInt (decs v) = v ∧ (∀ u, decs u = decs v → u = v))

/-- Worked examples of the spec's rules and of 95_test_vectors.md, as text lines. -/
def Obligations.WorkedExamples : Prop :=
  lineOf [0x89#8, 0xD9#8] = some "mov cx, bx".toList ∧
  lineOf [0x8B#8, 0x41#8, 0xDB#8] = some "mov ax, [bx + di - 37]".toList ∧
  lineOf [0xB1#8, 0x0C#8] = some "mov cl, 12".toList ∧
  lineOf [0xC7#8, 0x06#8, 0x00#8, 0x00#8, 0x0A#8, 0x00#8] = some "mov [0], word 10".toList ∧
  lineOf [0x88#8, 0x6E#8, 0x00#8] = some "mov [bp], ch".toList ∧
  lineOf [0x89#8, 0x87#8, 0x00#8, 0x80#8] = some "mov [bx - 32768], ax".toList ∧
  lineOf [0x8A#8, 0x56#8, 0x7F#8] = some "mov dl, [bp + 127]".toList ∧
  lineOf [0xB4#8, 0xF4#8] = some "mov ah, -12".toList ∧
  lineOf [0xBC#8, 0x00#8, 0x80#8] = some "mov sp, -32768".toList ∧
  lineOf [0xC6#8, 0xC1#8, 0xFF#8] = some "mov cl, byte -1".toList
end

