-- ==== Sys2Proof/Laws/Decode.lean ====
section
/-! SUPPORT. Small lemmas of the extractor, the lengths and the encoder. -/

namespace Sys2Proof

/-! ### Fields -/

@[simp] theorem modOf_modRegRm (m : ModeField) (r k : Key) : modOf (modRegRm m r k) = m := by
  revert m r k; decide

@[simp] theorem regOf_modRegRm (m : ModeField) (r k : Key) : regOf (modRegRm m r k) = r := by
  revert m r k; decide

@[simp] theorem rmOf_modRegRm (m : ModeField) (r k : Key) : rmOf (modRegRm m r k) = k := by
  revert m r k; decide

/-- Byte 1 is its three fields. -/
theorem modRegRm_fields (b1 : Byte) : modRegRm (modOf b1) (regOf b1) (rmOf b1) = b1 := by
  revert b1; decide

/-- The byte at the lower offset is the low one (R10, R36). -/
theorem le16_toNat (lo hi : Byte) : (le16 lo hi).toNat = hi.toNat * 256 + lo.toNat := by
  show (hi ++ lo : BitVec (8 + 8)).toNat = _
  rw [BitVec.toNat_append, ← Nat.shiftLeft_add_eq_or_of_lt lo.isLt, Nat.shiftLeft_eq]

theorem lowByte_toNat (v : Word) : (lowByte v).toNat = v.toNat % 256 := by
  simp [lowByte, BitVec.extractLsb'_toNat]

theorem highByte_toNat (v : Word) : (highByte v).toNat = v.toNat / 256 % 256 := by
  simp [highByte, BitVec.extractLsb'_toNat, Nat.shiftRight_eq_div_pow]

@[simp] theorem le16_lowByte_highByte (v : Word) : le16 (lowByte v) (highByte v) = v := by
  apply BitVec.eq_of_toNat_eq
  rw [le16_toNat, lowByte_toNat, highByte_toNat]
  have := v.isLt
  omega

@[simp] theorem lowByte_le16 (lo hi : Byte) : lowByte (le16 lo hi) = lo := by
  apply BitVec.eq_of_toNat_eq
  rw [lowByte_toNat, le16_toNat]
  have := lo.isLt
  omega

@[simp] theorem highByte_le16 (lo hi : Byte) : highByte (le16 lo hi) = hi := by
  apply BitVec.eq_of_toNat_eq
  rw [highByte_toNat, le16_toNat]
  have := lo.isLt
  have := hi.isLt
  omega

@[simp] theorem byteAt_zero (b : Byte) (bs : List Byte) : byteAt (b :: bs) 0 = b := rfl

@[simp] theorem byteAt_succ (b : Byte) (bs : List Byte) (k : Nat) :
    byteAt (b :: bs) (k + 1) = byteAt bs k := rfl

/-- A list is read the same past any number of bytes taken that reach the offset read. -/
theorem byteAt_take {bs : List Byte} {n k : Nat} (h : k < n) : byteAt (bs.take n) k = byteAt bs k := by
  simp [byteAt, List.getD_eq_getElem?_getD, h]

/-! ### Lengths -/

theorem extra_le (m : ModeField) (k : Key) : extra m k ≤ 2 := by
  revert m k; decide

/-- The form's extra bytes are those of its encoded fields (R60). -/
theorem Rm.extra_eq {rm : Rm} (h : rm.wf = true) : Sys2Proof.extra rm.mode rm.key = rm.extra := by
  cases rm with
  | base k => revert k; decide
  | reg k => rfl
  | direct a => rfl
  | disp8 k d => rfl
  | disp16 k d => rfl

@[simp] theorem Rm.length_extraBytes (rm : Rm) : rm.extraBytes.length = rm.extra := by
  cases rm <;> rfl

theorem Rm.extra_le (rm : Rm) : rm.extra ≤ 2 := by
  cases rm <;> simp [Rm.extra]

theorem minLength_le (fam : Family) (b0 : Byte) : 2 ≤ minLength fam b0 ∧ minLength fam b0 ≤ 3 := by
  cases fam <;> simp only [minLength] <;> cases widthIR b0 <;> simp [immSize]

theorem immSize_bounds (w : Width) : 1 ≤ immSize w ∧ immSize w ≤ 2 := by
  cases w <;> decide

theorem encodedLength_bounds (fam : Family) (b0 b1 : Byte) :
    2 ≤ encodedLength fam b0 b1 ∧ encodedLength fam b0 b1 ≤ 6 := by
  have := Sys2Proof.extra_le (modOf b1) (rmOf b1)
  have := immSize_bounds (widthIR b0)
  have := immSize_bounds (widthLow b0)
  cases fam <;> simp only [encodedLength] <;> omega

theorem minLength_le_encodedLength (fam : Family) (b0 b1 : Byte) :
    minLength fam b0 ≤ encodedLength fam b0 b1 := by
  cases fam <;> simp only [minLength, encodedLength] <;> omega

theorem Instr.length_bounds (i : Instr) : 2 ≤ i.length ∧ i.length ≤ 6 := by
  cases i with
  | movR8Imm8 reg imm => simp [Instr.length]
  | movR16Imm16 reg imm => simp [Instr.length]
  | movRm8R8 rm reg => have := Rm.extra_le rm; simp only [Instr.length]; omega
  | movRm16R16 rm reg => have := Rm.extra_le rm; simp only [Instr.length]; omega
  | movR8Rm8 reg rm => have := Rm.extra_le rm; simp only [Instr.length]; omega
  | movR16Rm16 reg rm => have := Rm.extra_le rm; simp only [Instr.length]; omega
  | movRm8Imm8 ig rm imm => have := Rm.extra_le rm; simp only [Instr.length]; omega
  | movRm16Imm16 ig rm imm => have := Rm.extra_le rm; simp only [Instr.length]; omega

/-! ### The decoder's cases -/

/-- Everything decoding a list with a lead byte can answer. -/
theorem decode_cons (b0 : Byte) (rest : List Byte) :
    (dispatch b0 = none ∧ decode (b0 :: rest) = .error (.unrecognizedOpcode b0)) ∨
    ∃ fam, dispatch b0 = some fam ∧
      (((b0 :: rest).length < minLength fam b0 ∧
          decode (b0 :: rest) = .error (.truncatedInstruction (minLength fam b0))) ∨
        (minLength fam b0 ≤ (b0 :: rest).length ∧
          (b0 :: rest).length < encodedLength fam b0 (byteAt (b0 :: rest) 1) ∧
          decode (b0 :: rest) =
            .error (.truncatedInstruction (encodedLength fam b0 (byteAt (b0 :: rest) 1)))) ∨
        (encodedLength fam b0 (byteAt (b0 :: rest) 1) ≤ (b0 :: rest).length ∧
          decode (b0 :: rest) = .ok (decodeFamily fam (b0 :: rest)))) := by
  cases h : dispatch b0 with
  | none => exact .inl ⟨rfl, by simp [decode, h]⟩
  | some fam =>
    refine .inr ⟨fam, rfl, ?_⟩
    have hle := minLength_le_encodedLength fam b0 (byteAt (b0 :: rest) 1)
    by_cases h1 : (b0 :: rest).length < minLength fam b0
    · exact .inl ⟨h1, by simp only [decode, h, if_pos h1]⟩
    · by_cases h2 : (b0 :: rest).length < encodedLength fam b0 (byteAt (b0 :: rest) 1)
      · exact .inr (.inl ⟨by omega, h2, by simp only [decode, h, if_neg h1, if_pos h2]⟩)
      · exact .inr (.inr ⟨by omega, by simp only [decode, h, if_neg h1, if_neg h2]⟩)

end Sys2Proof
end

