-- ==== Sys2Proof/Laws/State.lean ====
section
/-! SUPPORT. What each update of State does to each field, and the window and remaining bytes, which depend on
the buffer and the cursor alone. -/

namespace Sys2Proof.Machine

/-! ### raise -/

@[simp] theorem State.raise_buf (k : FaultKind) (bs : List Byte) (n : Nat) (s : State) : (s.raise k bs n).buf = s.buf := rfl
@[simp] theorem State.raise_cursor (k : FaultKind) (bs : List Byte) (n : Nat) (s : State) : (s.raise k bs n).cursor = s.cursor := rfl
@[simp] theorem State.raise_status (k : FaultKind) (bs : List Byte) (n : Nat) (s : State) : (s.raise k bs n).status = .fault := rfl
@[simp] theorem State.raise_faultCode (k : FaultKind) (bs : List Byte) (n : Nat) (s : State) : (s.raise k bs n).faultCode = k.code := rfl
@[simp] theorem State.raise_faultOffset (k : FaultKind) (bs : List Byte) (n : Nat) (s : State) : (s.raise k bs n).faultOffset = s.cursor := rfl
@[simp] theorem State.raise_faultBytes (k : FaultKind) (bs : List Byte) (n : Nat) (s : State) : (s.raise k bs n).faultBytes = bs := rfl
@[simp] theorem State.raise_faultNeed (k : FaultKind) (bs : List Byte) (n : Nat) (s : State) : (s.raise k bs n).faultNeed = n := rfl
@[simp] theorem State.raise_output (k : FaultKind) (bs : List Byte) (n : Nat) (s : State) : (s.raise k bs n).output = s.output := rfl

/-! ### emit -/

@[simp] theorem State.emit_buf (r : Record) (s : State) : (s.emit r).buf = s.buf := rfl
@[simp] theorem State.emit_cursor (r : Record) (s : State) : (s.emit r).cursor = s.cursor := rfl
@[simp] theorem State.emit_status (r : Record) (s : State) : (s.emit r).status = s.status := rfl
@[simp] theorem State.emit_faultCode (r : Record) (s : State) : (s.emit r).faultCode = s.faultCode := rfl
@[simp] theorem State.emit_faultOffset (r : Record) (s : State) : (s.emit r).faultOffset = s.faultOffset := rfl
@[simp] theorem State.emit_faultBytes (r : Record) (s : State) : (s.emit r).faultBytes = s.faultBytes := rfl
@[simp] theorem State.emit_faultNeed (r : Record) (s : State) : (s.emit r).faultNeed = s.faultNeed := rfl
@[simp] theorem State.emit_output (r : Record) (s : State) : (s.emit r).output = s.output ++ [.instr r] := rfl

/-! ### advance -/

@[simp] theorem State.advance_buf (n : Nat) (s : State) : (s.advance n).buf = s.buf := rfl
@[simp] theorem State.advance_cursor (n : Nat) (s : State) : (s.advance n).cursor = s.cursor + n := rfl
@[simp] theorem State.advance_status (n : Nat) (s : State) : (s.advance n).status = s.status := rfl
@[simp] theorem State.advance_faultCode (n : Nat) (s : State) : (s.advance n).faultCode = s.faultCode := rfl
@[simp] theorem State.advance_faultOffset (n : Nat) (s : State) : (s.advance n).faultOffset = s.faultOffset := rfl
@[simp] theorem State.advance_faultBytes (n : Nat) (s : State) : (s.advance n).faultBytes = s.faultBytes := rfl
@[simp] theorem State.advance_faultNeed (n : Nat) (s : State) : (s.advance n).faultNeed = s.faultNeed := rfl
@[simp] theorem State.advance_output (n : Nat) (s : State) : (s.advance n).output = s.output := rfl

/-! ### markDone -/

@[simp] theorem State.markDone_buf (s : State) : (s.markDone).buf = s.buf := rfl
@[simp] theorem State.markDone_cursor (s : State) : (s.markDone).cursor = s.cursor := rfl
@[simp] theorem State.markDone_status (s : State) : (s.markDone).status = .done := rfl
@[simp] theorem State.markDone_faultCode (s : State) : (s.markDone).faultCode = s.faultCode := rfl
@[simp] theorem State.markDone_faultOffset (s : State) : (s.markDone).faultOffset = s.faultOffset := rfl
@[simp] theorem State.markDone_faultBytes (s : State) : (s.markDone).faultBytes = s.faultBytes := rfl
@[simp] theorem State.markDone_faultNeed (s : State) : (s.markDone).faultNeed = s.faultNeed := rfl
@[simp] theorem State.markDone_output (s : State) : (s.markDone).output = s.output := rfl

/-! ### withBuffer -/

@[simp] theorem State.withBuffer_buf (bs : List Byte) (s : State) : (s.withBuffer bs).buf = Memory.ofBytes bs := rfl
@[simp] theorem State.withBuffer_cursor (bs : List Byte) (s : State) : (s.withBuffer bs).cursor = s.cursor := rfl
@[simp] theorem State.withBuffer_status (bs : List Byte) (s : State) : (s.withBuffer bs).status = s.status := rfl
@[simp] theorem State.withBuffer_faultCode (bs : List Byte) (s : State) : (s.withBuffer bs).faultCode = s.faultCode := rfl
@[simp] theorem State.withBuffer_faultOffset (bs : List Byte) (s : State) : (s.withBuffer bs).faultOffset = s.faultOffset := rfl
@[simp] theorem State.withBuffer_faultBytes (bs : List Byte) (s : State) : (s.withBuffer bs).faultBytes = s.faultBytes := rfl
@[simp] theorem State.withBuffer_faultNeed (bs : List Byte) (s : State) : (s.withBuffer bs).faultNeed = s.faultNeed := rfl
@[simp] theorem State.withBuffer_output (bs : List Byte) (s : State) : (s.withBuffer bs).output = s.output := rfl

/-! ### assertReset -/

@[simp] theorem State.assertReset_buf (s : State) : (s.assertReset).buf = s.buf := rfl
@[simp] theorem State.assertReset_cursor (s : State) : (s.assertReset).cursor = 0 := rfl
@[simp] theorem State.assertReset_status (s : State) : (s.assertReset).status = .run := rfl
@[simp] theorem State.assertReset_faultCode (s : State) : (s.assertReset).faultCode = noFaultCode := rfl
@[simp] theorem State.assertReset_faultOffset (s : State) : (s.assertReset).faultOffset = 0 := rfl
@[simp] theorem State.assertReset_faultBytes (s : State) : (s.assertReset).faultBytes = [] := rfl
@[simp] theorem State.assertReset_faultNeed (s : State) : (s.assertReset).faultNeed = 0 := rfl
@[simp] theorem State.assertReset_output (s : State) : (s.assertReset).output = [.header] := rfl

/-! ### withFetchWord -/

@[simp] theorem State.withFetchWord_buf (s : State) (nbits w : Nat) : (s.withFetchWord nbits w).buf = s.buf.placeBytes s.cursor (tableBytes nbits w) := rfl
@[simp] theorem State.withFetchWord_cursor (s : State) (nbits w : Nat) : (s.withFetchWord nbits w).cursor = s.cursor := rfl
@[simp] theorem State.withFetchWord_status (s : State) (nbits w : Nat) : (s.withFetchWord nbits w).status = .run := rfl
@[simp] theorem State.withFetchWord_faultCode (s : State) (nbits w : Nat) : (s.withFetchWord nbits w).faultCode = s.faultCode := rfl
@[simp] theorem State.withFetchWord_faultOffset (s : State) (nbits w : Nat) : (s.withFetchWord nbits w).faultOffset = s.faultOffset := rfl
@[simp] theorem State.withFetchWord_faultBytes (s : State) (nbits w : Nat) : (s.withFetchWord nbits w).faultBytes = s.faultBytes := rfl
@[simp] theorem State.withFetchWord_faultNeed (s : State) (nbits w : Nat) : (s.withFetchWord nbits w).faultNeed = s.faultNeed := rfl
@[simp] theorem State.withFetchWord_output (s : State) (nbits w : Nat) : (s.withFetchWord nbits w).output = s.output := rfl

/-! ### Views -/

/-- A run has ended exactly when STATUS is not RUN (R94). -/
@[simp] theorem State.ended_iff (s : State) : s.ended = true ↔ s.status ≠ .run := by
  simp [State.ended]

@[simp] theorem State.start_buf (bs : List Byte) : (State.start bs).buf = Memory.ofBytes bs := rfl
@[simp] theorem State.start_cursor (bs : List Byte) : (State.start bs).cursor = 0 := rfl
@[simp] theorem State.start_status (bs : List Byte) : (State.start bs).status = .run := rfl
@[simp] theorem State.start_output (bs : List Byte) : (State.start bs).output = [.header] := rfl
@[simp] theorem State.start_faultRecord (bs : List Byte) :
    (State.start bs).faultRecord = noFaultRecord := rfl

/-- The block's reset value is the start over the empty buffer. -/
theorem State.start_nil : State.start [] = State.reset := rfl

/-- Everything a load can do: outside RUN it replaces the buffer, in RUN there is no such move (R26). -/
theorem State.load_eq_some {bs : List Byte} {s t : State} :
    s.load bs = some t ↔ s.status ≠ .run ∧ t = s.withBuffer bs := by
  by_cases h : s.ended = true
  · rw [State.load, if_pos h, Option.some.injEq]
    exact ⟨fun e => ⟨(State.ended_iff s).1 h, e.symm⟩, fun e => e.2.symm⟩
  · rw [State.load, if_neg h]
    exact ⟨(by simp), fun e => absurd ((State.ended_iff s).2 e.1) h⟩

/-- Everything a boot can do: outside RUN it gives the start over the new buffer, whatever the block held
before (R128, R130). -/
theorem State.boot_eq_some {bs : List Byte} {s u : State} :
    s.boot bs = some u ↔ s.status ≠ .run ∧ u = State.start bs := by
  simp only [State.boot, Option.map_eq_some_iff, State.load_eq_some]
  constructor
  · rintro ⟨t, ⟨h, rfl⟩, rfl⟩
    exact ⟨h, rfl⟩
  · rintro ⟨h, rfl⟩
    exact ⟨s.withBuffer bs, ⟨h, rfl⟩, rfl⟩

end Sys2Proof.Machine
end

