-- ==== Sys2Proof/Laws/Memory.lean ====
section
/-! SUPPORT. The byte buffer: what a placed or loaded byte reads as, and that the canonical form is kept. -/

namespace Sys2Proof.Machine

/-! ### The canonical form -/

/-- The canonical form of a list of cells, apart from the bound `L`. -/
def CellsOk (cs : List Host.Cell) : Prop :=
  (cs.Pairwise fun c d => c.1 < d.1) ∧ ∀ c ∈ cs, c.2 ≠ Memory.unlisted

theorem Memory.wf_iff (m : Memory) : m.wf = true ↔ CellsOk m.cells ∧ ∀ c ∈ m.cells, c.1 < m.len := by
  simp only [Memory.wf, CellsOk, Bool.and_eq_true, decide_eq_true_eq, List.all_eq_true, bne_iff_ne]
  constructor
  · rintro ⟨h, k⟩
    exact ⟨⟨h, fun c hc => (k c hc).2⟩, fun c hc => (k c hc).1⟩
  · rintro ⟨⟨h, k⟩, l⟩
    exact ⟨h, fun c hc => ⟨l c hc, k c hc⟩⟩

theorem lookupCell_of_forall_lt {cs : List Host.Cell} {a : Nat} (h : ∀ c ∈ cs, a < c.1) :
    lookupCell cs a = Memory.unlisted := by
  induction cs with
  | nil => rfl
  | cons c cs ih =>
    have hc := h c (by simp)
    simp only [lookupCell]
    rw [if_neg (by omega)]
    exact ih fun d hd => h d (by simp [hd])

/-! ### Loading -/

theorem cellsFrom_ge (bs : List Byte) : ∀ a, ∀ c ∈ cellsFrom a bs, a ≤ c.1 ∧ c.1 < a + bs.length := by
  induction bs with
  | nil => intro a c hc; simp [cellsFrom] at hc
  | cons b bs ih =>
    intro a c hc
    have key : c ∈ cellsFrom (a + 1) bs → a ≤ c.1 ∧ c.1 < a + (b :: bs).length := fun h => by
      have := ih (a + 1) c h
      simp only [List.length_cons]; omega
    simp only [cellsFrom] at hc
    split at hc
    · exact key hc
    · rcases List.mem_cons.1 hc with rfl | h
      · simp
      · exact key h

theorem cellsFrom_ok (bs : List Byte) : ∀ a, CellsOk (cellsFrom a bs) := by
  induction bs with
  | nil => intro a; simp [cellsFrom, CellsOk]
  | cons b bs ih =>
    intro a
    obtain ⟨hp, hn⟩ := ih (a + 1)
    simp only [cellsFrom]
    split
    · exact ⟨hp, hn⟩
    · rename_i hb
      refine ⟨List.pairwise_cons.2 ⟨fun d hd => ?_, hp⟩, ?_⟩
      · have := (cellsFrom_ge bs (a + 1) d hd).1
        show a < d.1
        omega
      · intro c hc
        rcases List.mem_cons.1 hc with rfl | h
        · exact hb
        · exact hn c h

/-- A loaded buffer is in canonical form. -/
theorem Memory.ofBytes_wf (bs : List Byte) : (Memory.ofBytes bs).wf = true :=
  (Memory.wf_iff _).2 ⟨cellsFrom_ok bs 0, fun c hc => by
    have := (cellsFrom_ge bs 0 c hc).2
    simpa [Memory.ofBytes] using this⟩

theorem lookupCell_cellsFrom (bs : List Byte) :
    ∀ a k, lookupCell (cellsFrom a bs) (a + k) = bs.getD k Memory.unlisted := by
  induction bs with
  | nil => intro a k; simp [cellsFrom, lookupCell]
  | cons b bs ih =>
    intro a k
    simp only [cellsFrom]
    cases k with
    | zero =>
      split
      · rename_i hb
        rw [lookupCell_of_forall_lt (fun c hc => by have := (cellsFrom_ge bs (a + 1) c hc).1; omega)]
        simp [hb]
      · simp [lookupCell]
    | succ k =>
      have e : a + (k + 1) = (a + 1) + k := by omega
      have := ih (a + 1) k
      split
      · rw [e, this]; simp
      · simp only [lookupCell]
        rw [if_neg (by omega), e, this]; simp

/-- A loaded buffer reads as the bytes loaded. -/
theorem Memory.read_ofBytes (bs : List Byte) (a : Nat) :
    (Memory.ofBytes bs).read a = bs.getD a Memory.unlisted := by
  have := lookupCell_cellsFrom bs 0 a
  simpa [Memory.read, Memory.ofBytes] using this

@[simp] theorem Memory.len_ofBytes (bs : List Byte) : (Memory.ofBytes bs).len = bs.length := rfl

/-- All bytes of a loaded buffer are the bytes loaded. -/
@[simp] theorem Memory.toBytes_ofBytes (bs : List Byte) : (Memory.ofBytes bs).toBytes = bs := by
  apply List.ext_getElem
  · simp [Memory.toBytes]
  · intro i h1 h2
    simp [Memory.toBytes, Memory.read_ofBytes, h2]

/-! ### Placing -/

theorem putCell_mem {cs : List Host.Cell} {a : Nat} {b : Byte} :
    ∀ c ∈ putCell cs a b, c ∈ cs ∨ (c = (a, b) ∧ b ≠ Memory.unlisted) := by
  induction cs with
  | nil =>
    intro c hc
    simp only [putCell] at hc
    split at hc <;> simp_all
  | cons d cs ih =>
    intro c hc
    simp only [putCell] at hc
    split at hc
    · split at hc <;> simp_all
      tauto
    · split at hc
      · split at hc <;> simp_all
        tauto
      · rcases List.mem_cons.1 hc with rfl | h
        · exact .inl (by simp)
        · exact (ih c h).imp (fun h => by simp [h]) id

theorem putCell_ok {cs : List Host.Cell} (h : CellsOk cs) (a : Nat) (b : Byte) :
    CellsOk (putCell cs a b) := by
  refine ⟨?_, fun c hc => ?_⟩
  · obtain ⟨hp, -⟩ := h
    induction cs with
    | nil => simp only [putCell]; split <;> simp
    | cons d cs ih =>
      obtain ⟨hd, hp'⟩ := List.pairwise_cons.1 hp
      simp only [putCell]
      split
      · rename_i had
        split
        · exact hp
        · refine List.pairwise_cons.2 ⟨fun c hc => ?_, hp⟩
          rcases List.mem_cons.1 hc with rfl | hc
          · exact had
          · exact lt_trans had (hd c hc)
      · split
        · rename_i had
          split
          · exact hp'
          · exact List.pairwise_cons.2 ⟨fun c hc => by have := hd c hc; show a < c.1; omega, hp'⟩
        · refine List.pairwise_cons.2 ⟨fun c hc => ?_, ih hp'⟩
          rcases putCell_mem c hc with hc | ⟨rfl, -⟩
          · exact hd c hc
          · show d.1 < a; omega
  · rcases putCell_mem c hc with hc | ⟨rfl, hb⟩
    · exact h.2 c hc
    · exact hb

theorem lookupCell_putCell {cs : List Host.Cell} (h : CellsOk cs) (a k : Nat) (b : Byte) :
    lookupCell (putCell cs a b) k = if k = a then b else lookupCell cs k := by
  obtain ⟨hp, -⟩ := h
  induction cs with
  | nil =>
    simp only [putCell]
    split <;> simp_all [lookupCell, eq_comm]
  | cons d cs ih =>
    obtain ⟨hd, hp'⟩ := List.pairwise_cons.1 hp
    have ih := ih hp'
    have above : a ≤ d.1 → lookupCell cs a = Memory.unlisted := fun h =>
      lookupCell_of_forall_lt fun c hc => lt_of_le_of_lt h (hd c hc)
    simp only [putCell]
    by_cases hka : k = a
    · subst hka
      rw [if_pos rfl]
      split
      · split
        · simp only [lookupCell]; rw [if_neg (by omega), above (by omega)]; simp_all
        · simp [lookupCell]
      · split
        · split
          · rw [above (by omega)]; simp_all
          · simp [lookupCell]
        · simp only [lookupCell]; rw [if_neg (by omega), ih, if_pos rfl]
    · rw [if_neg hka]
      rw [if_neg hka] at ih
      split
      · split
        · rfl
        · simp only [lookupCell]; rw [if_neg (by omega)]
      · split
        · split
          · simp only [lookupCell]; rw [if_neg (by omega)]
          · simp only [lookupCell]; rw [if_neg (by omega), if_neg (by omega)]
        · simp only [lookupCell, ih]

/-- Placing a byte keeps the canonical form. -/
theorem Memory.place_wf {m : Memory} (h : m.wf = true) (a : Nat) (b : Byte) :
    (m.place a b).wf = true := by
  obtain ⟨hc, hl⟩ := (Memory.wf_iff m).1 h
  refine (Memory.wf_iff _).2 ⟨putCell_ok hc a b, fun c hm => ?_⟩
  rcases putCell_mem c hm with hm | ⟨rfl, -⟩
  · have := hl c hm
    simp only [Memory.place]; omega
  · simp [Memory.place]

/-- A placed byte reads back, and every other offset reads as before. -/
theorem Memory.read_place {m : Memory} (h : m.wf = true) (a k : Nat) (b : Byte) :
    (m.place a b).read k = if k = a then b else m.read k :=
  lookupCell_putCell ((Memory.wf_iff m).1 h).1 a k b

@[simp] theorem Memory.len_place (m : Memory) (a : Nat) (b : Byte) :
    (m.place a b).len = max m.len (a + 1) := rfl

/-- Placing bytes keeps the canonical form. -/
theorem Memory.placeBytes_wf (bs : List Byte) :
    ∀ {m : Memory} (_ : m.wf = true) (a : Nat), (m.placeBytes a bs).wf = true := by
  induction bs with
  | nil => intro m h a; exact h
  | cons b bs ih => intro m h a; exact ih (Memory.place_wf h a b) (a + 1)

/-- Placed bytes read back, and every offset outside them reads as before. -/
theorem Memory.read_placeBytes (bs : List Byte) :
    ∀ {m : Memory} (_ : m.wf = true) (a k : Nat),
      (m.placeBytes a bs).read k =
        if a ≤ k ∧ k < a + bs.length then bs.getD (k - a) Memory.unlisted else m.read k := by
  induction bs with
  | nil => intro m h a k; simp [Memory.placeBytes]
  | cons b bs ih =>
    intro m h a k
    simp only [Memory.placeBytes, ih (Memory.place_wf h a b), Memory.read_place h, List.length_cons]
    by_cases hk : k = a
    · subst hk; simp
    · by_cases hr : a + 1 ≤ k ∧ k < a + 1 + bs.length
      · obtain ⟨j, rfl⟩ : ∃ j, k = a + 1 + j := ⟨k - (a + 1), by omega⟩
        rw [if_pos hr, if_pos (by omega)]
        have e1 : a + 1 + j - (a + 1) = j := by omega
        have e2 : a + 1 + j - a = j + 1 := by omega
        rw [e1, e2]; simp
      · rw [if_neg hr, if_neg hk, if_neg (by omega)]

/-! ### Reading ranges -/

/-- `MemRead` inside the buffer is a piece of the buffer's bytes (R11). -/
theorem Memory.readRange_eq {m : Memory} {a n : Nat} (h : a + n ≤ m.len) :
    m.readRange a n = some ((m.toBytes.drop a).take n) := by
  simp only [Memory.readRange, if_pos h, Option.some.injEq]
  apply List.ext_getElem
  · simp [Memory.toBytes]; omega
  · intro i h1 h2
    simp [Memory.toBytes]

@[simp] theorem Memory.length_toBytes (m : Memory) : m.toBytes.length = m.len := by
  simp [Memory.toBytes]

end Sys2Proof.Machine
end

