-- ==== Sys2Proof/Laws/Ops.lean ====
section
/-! SUPPORT. The window, and everything completing an instruction, a meaning and a step can do, said once. -/

namespace Sys2Proof.Machine

/-! ### The window -/

@[simp] theorem State.length_remaining (s : State) :
    s.remaining.length = s.buf.len - s.cursor := by
  simp [State.remaining]

/-- Inside the buffer the window is the next six bytes, or as many as there are (R83). -/
theorem State.window_eq {s : State} (h : s.cursor ≤ s.buf.len) :
    s.window = some (s.remaining.take 6) := by
  simp only [State.window, Config.windowMax]
  rw [Memory.readRange_eq (by omega)]
  congr 1
  rw [State.remaining]
  rw [List.take_eq_take_iff]
  simp

/-- There is no window past the buffer's end. -/
theorem State.window_eq_none {s : State} (h : s.buf.len < s.cursor) : s.window = none := by
  simp only [State.window, Memory.readRange]
  rw [if_neg (by omega)]

/-- The window depends on the buffer and the cursor alone. -/
theorem State.window_congr {s t : State} (hb : s.buf = t.buf) (hc : s.cursor = t.cursor) :
    s.window = t.window := by
  simp [State.window, hb, hc]

/-! ### Completing an instruction -/

@[simp] theorem whileRunning_run {s : State} (h : s.status = .run)
    (body : Host.Outcome State Fault Refusal) : whileRunning s body = body := by
  simp [whileRunning, h]

/-- A block that is not in RUN answers no next state (R93). -/
theorem whileRunning_next {s t : State} {body : Host.Outcome State Fault Refusal}
    (h : whileRunning s body = .next t) : s.status = .run ∧ body = .next t := by
  unfold whileRunning at h
  split at h <;> simp_all

/-- Everything `retire` can answer as a next state. -/
theorem retire_next_cases {minLen : Nat} {r : Record} {s t : State}
    (h : retire minLen r s = .next t) :
    s.status = .run ∧ ∃ win, s.window = some win ∧
      ((win.length < minLen ∧ t = s.raise .truncatedInstruction win minLen) ∨
        (minLen ≤ win.length ∧ win.length < r.length ∧
          t = s.raise .truncatedInstruction win r.length) ∨
        (minLen ≤ win.length ∧ r.length ≤ win.length ∧ t = (s.emit r).advance r.length)) := by
  obtain ⟨hr, hb⟩ := whileRunning_next h
  refine ⟨hr, ?_⟩
  cases hw : s.window with
  | none => simp [hw] at hb
  | some win =>
    refine ⟨win, rfl, ?_⟩
    simp only [hw] at hb
    split at hb
    · exact .inl ⟨‹_›, (Host.Outcome.next.inj hb).symm⟩
    · split at hb
      · exact .inr (.inl ⟨by omega, ‹_›, (Host.Outcome.next.inj hb).symm⟩)
      · exact .inr (.inr ⟨by omega, by omega, (Host.Outcome.next.inj hb).symm⟩)

/-- Where the bytes are there, completing emits the record and advances by its length. -/
theorem retire_completes {minLen : Nat} {r : Record} {s : State} (hr : s.status = .run)
    {win : List Byte} (hw : s.window = some win) (hm : minLen ≤ win.length)
    (hl : r.length ≤ win.length) :
    retire minLen r s = .next ((s.emit r).advance r.length) := by
  simp only [retire, whileRunning_run hr, hw]
  rw [if_neg (by omega), if_neg (by omega)]

/-! ### Meanings -/

/-- The length the first presence check of an instruction asks for (R84). -/
def firstCheck : Instr → Nat
  | .movR16Imm16 _ _ => 3
  | _ => 2

/-- Every meaning completes its record. -/
theorem exec_eq_retire (i : Instr) (s : State) : exec i s = retire (firstCheck i) (recordOf i) s := by
  cases i <;> rfl

/-- An instruction's record carries its length (R86). -/
@[simp] theorem recordOf_length (i : Instr) : (recordOf i).length = i.length := by
  cases i <;> rfl

theorem firstCheck_le (i : Instr) : firstCheck i ≤ i.length := by
  cases i <;> simp [firstCheck, Instr.length] <;> omega

/-! ### A step -/

/-- Everything a step can answer as a next state: the end of the run, a decoded instruction's effect, or a
fault the bytes give. -/
theorem step_next_cases {s t : State} (h : step s = .next t) :
    s.status = .run ∧
      ((s.cursor = s.buf.len ∧ t = s.markDone) ∨
        (s.cursor ≠ s.buf.len ∧ ∃ win, s.window = some win ∧
          ((∃ i, decode win = .ok i ∧ exec i s = .next t) ∨
            (∃ b0, decode win = .error (.unrecognizedOpcode b0) ∧
              t = s.raise .unrecognizedOpcode [b0] 0) ∨
            (∃ need, decode win = .error (.truncatedInstruction need) ∧
              t = s.raise .truncatedInstruction win need)))) := by
  obtain ⟨hr, hb⟩ := whileRunning_next h
  refine ⟨hr, ?_⟩
  split at hb
  · exact .inl ⟨‹_›, (Host.Outcome.next.inj hb).symm⟩
  · refine .inr ⟨‹_›, ?_⟩
    cases hw : s.window with
    | none => simp [hw] at hb
    | some win =>
      refine ⟨win, rfl, ?_⟩
      simp only [hw] at hb
      cases hd : decode win with
      | ok i => exact .inl ⟨i, rfl, by simpa [hd] using hb⟩
      | error e =>
        simp only [hd] at hb
        cases e with
        | noLeadByte => simp [raiseDecodeError] at hb
        | unrecognizedOpcode b0 =>
          exact .inr (.inl ⟨b0, rfl, (Host.Outcome.next.inj hb).symm⟩)
        | truncatedInstruction need =>
          exact .inr (.inr ⟨need, rfl, (Host.Outcome.next.inj hb).symm⟩)

/-- A step in RUN below the buffer's end is the decoder's answer on the next six bytes. -/
theorem step_eq {s : State} (hr : s.status = .run) (hc : s.cursor < s.buf.len) :
    step s = match decode (s.remaining.take 6) with
      | .ok i => exec i s
      | .error e => raiseDecodeError e (s.remaining.take 6) s := by
  cases hd : decode (s.remaining.take 6) <;>
    simp only [step, whileRunning_run hr, if_neg (by omega : ¬ s.cursor = s.buf.len),
      State.window_eq (le_of_lt hc), hd]

end Sys2Proof.Machine
end

