-- ==== Sys2Proof/Laws/PerInstr.lean ====
section
/-! SUPPORT. One statement per instruction: its encoding has the length R70 gives it. -/

namespace Sys2Proof.Laws

/-- An instruction's bytes are as many as its length, and begin with a lead byte of its own. -/
def EncodeLength.Statement (i : Instr) : Prop :=
  (encode i).length = i.length ∧ ∃ b0 rest, encode i = b0 :: rest ∧ dispatch b0 ≠ none

theorem EncodeLength.movRm8R8 (rm : Rm) (reg : Key) : EncodeLength.Statement (.movRm8R8 rm reg) :=
  ⟨by simp [encode, Rm.bytes, Instr.length]; omega, _, _, rfl, by decide⟩

theorem EncodeLength.movRm16R16 (rm : Rm) (reg : Key) :
    EncodeLength.Statement (.movRm16R16 rm reg) :=
  ⟨by simp [encode, Rm.bytes, Instr.length]; omega, _, _, rfl, by decide⟩

theorem EncodeLength.movR8Rm8 (reg : Key) (rm : Rm) : EncodeLength.Statement (.movR8Rm8 reg rm) :=
  ⟨by simp [encode, Rm.bytes, Instr.length]; omega, _, _, rfl, by decide⟩

theorem EncodeLength.movR16Rm16 (reg : Key) (rm : Rm) :
    EncodeLength.Statement (.movR16Rm16 reg rm) :=
  ⟨by simp [encode, Rm.bytes, Instr.length]; omega, _, _, rfl, by decide⟩

theorem EncodeLength.movR8Imm8 (reg : Key) (imm : Byte) :
    EncodeLength.Statement (.movR8Imm8 reg imm) :=
  ⟨rfl, _, _, rfl, by revert reg; decide⟩

theorem EncodeLength.movR16Imm16 (reg : Key) (imm : Word) :
    EncodeLength.Statement (.movR16Imm16 reg imm) :=
  ⟨rfl, _, _, rfl, by revert reg; decide⟩

theorem EncodeLength.movRm8Imm8 (ignored : Key) (rm : Rm) (imm : Byte) :
    EncodeLength.Statement (.movRm8Imm8 ignored rm imm) :=
  ⟨by simp [encode, Rm.bytes, Instr.length]; omega, _, _, rfl, by decide⟩

theorem EncodeLength.movRm16Imm16 (ignored : Key) (rm : Rm) (imm : Word) :
    EncodeLength.Statement (.movRm16Imm16 ignored rm imm) :=
  ⟨by simp [encode, Rm.bytes, wordBytes, Instr.length]; omega, _, _, rfl, by decide⟩

end Sys2Proof.Laws
end

