-- ==== Sys2Proof/Tests/Slice0.lean ====
section
/-! SUPPORT. The model's own tests: the well-formedness checks, words written out from the spec's formats, the
spec's worked examples, single steps, and for each statement with hypotheses a named state that meets them. -/

namespace Sys2Proof.Tests

open Sys2Proof.Machine

/-- The block right after the boot over a buffer. -/
def booted (bs : List Byte) : State := State.start bs

/-- The next state of an outcome, if it is one. -/
def nextOf : Host.Outcome State Fault Refusal → Option State
  | .next s => some s
  | .fault _ => none
  | .refused _ => none

/-- The rendered line of the bytes, as a string's characters. -/
def linesTo (bs : List Byte) (line : String) : Bool := lineOf bs == some line.toList

/-- STATUS, cursor and fault record after one step from boot. -/
def after (bs : List Byte) : Option (Status × Nat × FaultRecord) :=
  (nextOf (step (booted bs))).map fun s => (s.status, s.cursor, s.faultRecord)

/-! ### Well-formedness refuses an ill-formed term of each instruction that has an r/m operand -/

theorem test_wf_refuses_base_110 : (Rm.base 0b110#3).wf = false := by decide
theorem test_wf_accepts_base_111 : (Rm.base 0b111#3).wf = true := by decide
theorem test_wf_movRm8R8 : (Instr.movRm8R8 (.base 6#3) 0#3).wf = false := by decide
theorem test_wf_movRm16R16 : (Instr.movRm16R16 (.base 6#3) 0#3).wf = false := by decide
theorem test_wf_movR8Rm8 : (Instr.movR8Rm8 0#3 (.base 6#3)).wf = false := by decide
theorem test_wf_movR16Rm16 : (Instr.movR16Rm16 0#3 (.base 6#3)).wf = false := by decide
theorem test_wf_movRm8Imm8 : (Instr.movRm8Imm8 0#3 (.base 6#3) 0#8).wf = false := by decide
theorem test_wf_movRm16Imm16 : (Instr.movRm16Imm16 0#3 (.base 6#3) 0#16).wf = false := by decide

/-! ### Words written out from R52, R53 and R54 -/

theorem test_word_88 : decode [0b10001000#8, 0b11_000_001#8] = .ok (.movRm8R8 (.reg 1#3) 0#3) := by
  decide
theorem test_word_89 : decode [0b10001001#8, 0b00_011_000#8] = .ok (.movRm16R16 (.base 0#3) 3#3) := by
  decide
theorem test_word_8A :
    decode [0b10001010#8, 0b01_010_110#8, 0x7F#8] = .ok (.movR8Rm8 2#3 (.disp8 6#3 127#8)) := by decide
theorem test_word_8B : decode [0b10001011#8, 0b10_010_110#8, 0x34#8, 0x12#8] =
    .ok (.movR16Rm16 2#3 (.disp16 6#3 0x1234#16)) := by decide
theorem test_word_B0 : decode [0b10110_111#8, 0x7F#8] = .ok (.movR8Imm8 7#3 127#8) := by decide
theorem test_word_B8 : decode [0b10111_100#8, 0x00#8, 0x80#8] = .ok (.movR16Imm16 4#3 0x8000#16) := by
  decide
theorem test_word_C6 : decode [0b11000110#8, 0b00_000_110#8, 0x10#8, 0x00#8, 0x7F#8] =
    .ok (.movRm8Imm8 0#3 (.direct 16#16) 127#8) := by decide
theorem test_word_C7 : decode [0b11000111#8, 0b01_000_010#8, 0x05#8, 0x00#8, 0x80#8] =
    .ok (.movRm16Imm16 0#3 (.disp8 2#3 5#8) 0x8000#16) := by decide

/-- Conflict C1: 0xC4 is no MOV. -/
theorem test_C4_refused : decode [0xC4#8, 7#8, 5#8] = .error (.unrecognizedOpcode 0xC4#8) := by decide

/-! ### The spec's own lines (41 to 43 and 95_test_vectors.md) -/

theorem test_line_88 : linesTo [0x88#8, 0x46#8, 0xFF#8] "mov [bp - 1], al" := by decide
theorem test_line_89 : linesTo [0x89#8, 0x1E#8, 0xFF#8, 0xFF#8] "mov [65535], bx" := by decide
theorem test_line_8A : linesTo [0x8A#8, 0x80#8, 0x87#8, 0x13#8] "mov al, [bx + si + 4999]" := by decide
theorem test_line_8B : linesTo [0x8B#8, 0x96#8, 0x00#8, 0x00#8] "mov dx, [bp]" := by decide
theorem test_line_B0 : linesTo [0xB3#8, 0x80#8] "mov bl, -128" := by decide
theorem test_line_B8 : linesTo [0xBD#8, 0x6F#8, 0x0F#8] "mov bp, 3951" := by decide
theorem test_line_C6 : linesTo [0xC6#8, 0x46#8, 0xFE#8, 0x80#8] "mov [bp - 2], byte -128" := by decide
theorem test_line_C6_ignored : linesTo [0xC6#8, 0x3F#8, 0x05#8] "mov [bx], byte 5" := by decide
theorem test_line_C7 : linesTo [0xC7#8, 0x83#8, 0x10#8, 0x27#8, 0x2C#8, 0x01#8]
    "mov [bp + di + 10000], word 300" := by decide

/-! ### One step from boot (95_test_vectors.md S4, V6, P5) -/

theorem test_step_S4 : after [0xC7#8, 0x06#8, 0x00#8, 0x00#8, 0x0A#8, 0x00#8] =
    some (.run, 6, ⟨0#2, 0, [], 0⟩) := by decide
theorem test_step_unrecognized : after [0x26#8, 0x89#8, 0x07#8] =
    some (.fault, 0, ⟨1#2, 0, [0x26#8], 0⟩) := by decide
theorem test_step_lone_unrecognized : after [0x0F#8] = some (.fault, 0, ⟨1#2, 0, [0x0F#8], 0⟩) := by
  decide
theorem test_step_truncated_first : after [0xB8#8] = some (.fault, 0, ⟨2#2, 0, [0xB8#8], 3⟩) := by
  decide
theorem test_step_truncated_second : after [0xC6#8, 0x06#8, 0x10#8, 0x00#8] =
    some (.fault, 0, ⟨2#2, 0, [0xC6#8, 0x06#8, 0x10#8, 0x00#8], 5⟩) := by decide
theorem test_step_empty : after [] = some (.done, 0, ⟨0#2, 0, [], 0⟩) := by decide
theorem test_step_past_end :
    step { booted [] with cursor := 1 } = .fault .cursorOutsideBuffer := rfl
theorem test_table_word : decodeTableWord 8 0xC7 = some (.movRm16Imm16 0#3 (.base 0#3) 0#16) := by
  decide
theorem test_fetch_word : step (State.reset.withFetchWord 8 0xC7) =
    exec (.movRm16Imm16 0#3 (.base 0#3) 0#16) (State.reset.withFetchWord 8 0xC7) := rfl

/-! ### The host's moves (R26, R130) -/

theorem test_load_refused_in_run : State.reset.load [0x90#8] = none := by decide
theorem test_reset_in_run_keeps_buffer :
    ((booted [0x90#8]).hostMove .reset).map (·.buf) = some (Memory.ofBytes [0x90#8]) := by decide
theorem test_boot_after_done : State.reset.markDone.boot [0x89#8, 0xD9#8] = some (booted [0x89#8, 0xD9#8]) := by
  decide

/-! ### Witnesses: a state and operands that meet each statement's hypotheses -/

theorem witness_DecodeAgreesWithEncode : (Instr.movR16Rm16 3#3 (.base 7#3)).wf = true := by decide

theorem witness_EncodeAgreesWithDecode :
    decode [0x89#8, 0xD9#8] = .ok (.movRm16R16 (.reg 1#3) 3#3) := by decide

theorem witness_LengthFromFields_ir :
    decode [0xB9#8, 0x0C#8, 0x00#8] = .ok (.movR16Imm16 1#3 12#16) ∧
      dispatch 0xB9#8 = some .ir := by decide

theorem witness_LengthFromFields_irm :
    decode [0xC6#8, 0x07#8, 0x05#8] = .ok (.movRm8Imm8 0#3 (.base 7#3) 5#8) ∧
      dispatch 0xC6#8 = some .irm := by decide

theorem witness_DecodeReadsOnlyItsBytes :
    decode [0x89#8, 0xD9#8, 0x90#8] = .ok (.movRm16R16 (.reg 1#3) 3#3) ∧
      [0x89#8, 0xD9#8].take 2 = [0x89#8, 0xD9#8, 0x90#8].take 2 := by decide

theorem witness_EveryFieldCombinationDecodes :
    dispatch 0xC7#8 ≠ none ∧ 5 ≤ [0xFF#8, 1#8, 2#8, 3#8, 4#8].length := by decide

theorem witness_DispatchTriesSevenSixFour : dispatch 0x90#8 = none := by decide

theorem witness_StepRunsDecodedInstruction :
    (booted [0xB1#8, 0x0C#8]).status = .run ∧
      (booted [0xB1#8, 0x0C#8]).cursor < (booted [0xB1#8, 0x0C#8]).buf.len ∧
      (booted [0xB1#8, 0x0C#8]).window = some [0xB1#8, 0x0C#8] ∧
      decode [0xB1#8, 0x0C#8] = .ok (.movR8Imm8 1#3 12#8) := by decide

theorem witness_StepRunsInstructionInBuffer :
    (booted [0xB1#8, 0x0C#8, 0x90#8]).status = .run ∧ (Instr.movR8Imm8 1#3 12#8).wf = true ∧
      (booted [0xB1#8, 0x0C#8, 0x90#8]).remaining = encode (.movR8Imm8 1#3 12#8) ++ [0x90#8] := by
  decide

theorem witness_StepFollowsDecodeCycle_end :
    (booted []).status = .run ∧ (booted []).cursor = (booted []).buf.len := by decide

theorem witness_StepFollowsDecodeCycle_decode :
    (booted [0x90#8]).status = .run ∧ (booted [0x90#8]).cursor < (booted [0x90#8]).buf.len := by decide

/-- What the result statements ask of a state: RUN, the cursor in the buffer, and `n` bytes there or one too
few. -/
def roomFor (s : State) (n : Nat) : Bool :=
  s.status == .run && decide (s.cursor ≤ s.buf.len) && decide (s.cursor + n = s.buf.len)

/-- One byte too few. -/
def oneShortOf (s : State) (n : Nat) : Bool :=
  s.status == .run && decide (s.cursor ≤ s.buf.len) && decide (s.buf.len + 1 = s.cursor + n)

theorem witness_MovRm8R8Result : (Rm.disp8 6#3 0xFF#8).wf = true ∧
    roomFor (booted [0x88#8, 0x46#8, 0xFF#8]) (2 + extra 0b01#2 6#3) ∧
    oneShortOf (booted [0x88#8, 0x46#8]) (2 + extra 0b01#2 6#3) := by decide

theorem witness_MovRm16R16Result : (Rm.reg 1#3).wf = true ∧
    roomFor (booted [0x89#8, 0xD9#8]) (2 + extra 0b11#2 1#3) ∧
    oneShortOf (booted [0x89#8]) (2 + extra 0b11#2 1#3) := by decide

theorem witness_MovR8Rm8Result : (Rm.base 0#3).wf = true ∧
    roomFor (booted [0x8A#8, 0x00#8]) (2 + extra 0b00#2 0#3) ∧
    oneShortOf (booted [0x8A#8]) (2 + extra 0b00#2 0#3) := by decide

theorem witness_MovR16Rm16Result : (Rm.direct 0x8000#16).wf = true ∧
    roomFor (booted [0x8B#8, 0x36#8, 0x00#8, 0x80#8]) (2 + extra 0b00#2 6#3) ∧
    oneShortOf (booted [0x8B#8, 0x36#8, 0x00#8]) (2 + extra 0b00#2 6#3) := by decide

theorem witness_MovR8Imm8Result : roomFor (booted [0xB1#8, 0x0C#8]) 2 ∧ oneShortOf (booted [0xB1#8]) 2 := by
  decide

theorem witness_MovR16Imm16Result :
    roomFor (booted [0xB9#8, 0x0C#8, 0x00#8]) 3 ∧ oneShortOf (booted [0xB9#8, 0x0C#8]) 3 := by decide

theorem witness_MovRm8Imm8Result : (Rm.disp8 6#3 0xFE#8).wf = true ∧
    roomFor (booted [0xC6#8, 0x46#8, 0xFE#8, 0x80#8]) (3 + extra 0b01#2 6#3) ∧
    oneShortOf (booted [0xC6#8, 0x46#8, 0xFE#8]) (3 + extra 0b01#2 6#3) := by decide

theorem witness_MovRm16Imm16Result : (Rm.disp16 3#3 0x2710#16).wf = true ∧
    roomFor (booted [0xC7#8, 0x83#8, 0x10#8, 0x27#8, 0x2C#8, 0x01#8]) (4 + extra 0b10#2 3#3) ∧
    oneShortOf (booted [0xC7#8, 0x83#8, 0x10#8, 0x27#8, 0x2C#8]) (4 + extra 0b10#2 3#3) := by decide

theorem witness_MovFrame_completes :
    ((nextOf (exec (.movRm16R16 (.reg 1#3) 3#3) (booted [0x89#8, 0xD9#8]))).map (·.status)) =
      some .run := by decide

theorem witness_MovFrame_faults :
    ((nextOf (exec (.movRm16R16 (.reg 1#3) 3#3) (booted [0x89#8]))).map (·.status)) =
      some .fault := by decide

theorem witness_RegisterDirectMode :
    (booted [0xC7#8, 0xC6#8, 0x34#8, 0x12#8]).status = .run ∧ 0xC7#8 ∈ rmLeadBytes ∧
      (booted [0xC7#8, 0xC6#8, 0x34#8, 0x12#8]).remaining = [0xC7#8, 0xC6#8, 0x34#8, 0x12#8] ∧
      modOf 0xC6#8 = 0b11#2 ∧ immBytesOf 0xC7#8 ≤ [0x34#8, 0x12#8].length := by decide

theorem witness_MemoryModeNoDisplacement :
    (booted [0x8B#8, 0x0C#8]).status = .run ∧ 0x8B#8 ∈ rmLeadBytes ∧
      (booted [0x8B#8, 0x0C#8]).remaining = [0x8B#8, 0x0C#8] ∧ modOf 0x0C#8 = 0b00#2 ∧
      rmOf 0x0C#8 ≠ 0b110#3 ∧ immBytesOf 0x8B#8 ≤ ([] : List Byte).length := by decide

theorem witness_DirectAddressMode :
    (booted [0x89#8, 0x1E#8, 0xFF#8, 0xFF#8]).status = .run ∧ 0x89#8 ∈ rmLeadBytes ∧
      (booted [0x89#8, 0x1E#8, 0xFF#8, 0xFF#8]).remaining = [0x89#8, 0x1E#8, 0xFF#8, 0xFF#8] ∧
      modOf 0x1E#8 = 0b00#2 ∧ rmOf 0x1E#8 = 0b110#3 ∧
      immBytesOf 0x89#8 ≤ ([] : List Byte).length := by decide

theorem witness_MemoryModeDisp8 :
    (booted [0x88#8, 0x6E#8, 0x80#8]).status = .run ∧ 0x88#8 ∈ rmLeadBytes ∧
      (booted [0x88#8, 0x6E#8, 0x80#8]).remaining = [0x88#8, 0x6E#8, 0x80#8] ∧
      modOf 0x6E#8 = 0b01#2 ∧ immBytesOf 0x88#8 ≤ ([] : List Byte).length := by decide

theorem witness_MemoryModeDisp16 :
    (booted [0xC6#8, 0x85#8, 0x00#8, 0x80#8, 0x01#8]).status = .run ∧ 0xC6#8 ∈ rmLeadBytes ∧
      (booted [0xC6#8, 0x85#8, 0x00#8, 0x80#8, 0x01#8]).remaining =
        [0xC6#8, 0x85#8, 0x00#8, 0x80#8, 0x01#8] ∧
      modOf 0x85#8 = 0b10#2 ∧ immBytesOf 0xC6#8 ≤ [0x01#8].length := by decide

theorem witness_UnrecognizedOpcodeExactly :
    (booted [0x0F#8]).status = .run ∧ (booted [0x0F#8]).remaining = [0x0F#8] ∧
      dispatch 0x0F#8 = none ∧
      after [0x0F#8] = some (.fault, 0, ⟨FaultKind.unrecognizedOpcode.code, 0, [0x0F#8], 0⟩) := by
  decide

theorem witness_TruncatedInstructionRaised_first :
    (booted [0x88#8]).status = .run ∧ (booted [0x88#8]).remaining = [0x88#8] ∧
      dispatch 0x88#8 = some .rm ∧ [0x88#8].length < minLength .rm 0x88#8 := by decide

theorem witness_TruncatedInstructionRaised_second :
    (booted [0x8B#8, 0x41#8]).status = .run ∧
      (booted [0x8B#8, 0x41#8]).remaining = [0x8B#8, 0x41#8] ∧ dispatch 0x8B#8 = some .rm ∧
      2 ≤ [0x8B#8, 0x41#8].length ∧
      [0x8B#8, 0x41#8].length < encodedLength .rm 0x8B#8 (byteAt [0x41#8] 0) := by decide

/-- FaultNeedAndPriority, FaultsArePrecise: a step that answers a FAULT state, one for each case. -/
theorem witness_FaultNeedAndPriority :
    (after [0x90#8]).map (·.1) = some .fault ∧ (after [0xB8#8]).map (·.1) = some .fault ∧
      (after [0x8B#8, 0x41#8]).map (·.1) = some .fault := by decide

theorem witness_FaultsArePrecise :
    ((nextOf (step (booted [0xC4#8]))).map (·.status)) = some .fault := by decide

/-- A state that already holds code 3 (no run reaches one) and whose step completes. -/
theorem witness_InvalidModeOrFieldNeverRaised :
    ((nextOf (step { booted [0x89#8, 0xD9#8] with faultCode := 3#2 })).map (·.faultCode)) =
      some FaultKind.invalidModeOrField.code ∧
    ((nextOf (exec (.movRm16R16 (.reg 1#3) 3#3)
      { booted [0x89#8, 0xD9#8] with faultCode := 3#2 })).map (·.faultCode)) =
      some FaultKind.invalidModeOrField.code := by decide

theorem witness_NoStepAfterTheEnd :
    (booted []).markDone.status = .done ∧
      ((booted [0x90#8]).raise .unrecognizedOpcode [0x90#8] 0).status = .fault := by decide

theorem witness_DoneExactlyAtTheEnd :
    (booted []).status = .run ∧ (booted []).cursor = (booted []).buf.len ∧
      ((nextOf (step (booted []))).map (·.status)) = some .done := by decide

theorem witness_CursorWrittenOnlyByAdvance :
    (after [0x89#8, 0xD9#8]).map (·.1) = some .run ∧ (after [0x89#8]).map (·.1) = some .fault := by
  decide

/-- OutputAppendOnly, BufferNeverWritten: a run of several steps that answers a state. -/
theorem witness_OutputAppendOnly :
    ((nextOf (runSteps 3 (booted [0x89#8, 0xD9#8, 0xB1#8, 0x0C#8]))).map (·.cursor)) = some 4 := by
  decide

theorem witness_BufferNeverWritten :
    ((nextOf (runSteps 2 (booted [0x89#8, 0xD9#8]))).map (·.status)) = some .done := by decide

/-- Two buffers that differ past the window of six bytes. -/
theorem witness_StepReadsOnlyTheWindow :
    (booted [0x89#8, 0xD9#8, 0#8, 0#8, 0#8, 0#8, 1#8]).result =
        (booted [0x89#8, 0xD9#8, 0#8, 0#8, 0#8, 0#8, 2#8]).result ∧
      (booted [0x89#8, 0xD9#8, 0#8, 0#8, 0#8, 0#8, 1#8]).window =
        (booted [0x89#8, 0xD9#8, 0#8, 0#8, 0#8, 0#8, 2#8]).window ∧
      ((nextOf (step (booted [0x89#8, 0xD9#8, 0#8, 0#8, 0#8, 0#8, 1#8]))).map (·.cursor)) = some 2 := by
  decide

theorem witness_IgnoredFieldNotRead :
    (booted [0xC6#8, 0x3F#8, 0x05#8]).remaining = [0xC6#8, 0x3F#8, 0x05#8] ∧
      (booted [0xC6#8, 0x07#8, 0x05#8]).remaining = [0xC6#8, 0x07#8, 0x05#8] ∧
      modOf 0x3F#8 = modOf 0x07#8 ∧ rmOf 0x3F#8 = rmOf 0x07#8 ∧
      (booted [0xC6#8, 0x3F#8, 0x05#8]).result = (booted [0xC6#8, 0x07#8, 0x05#8]).result ∧
      ((nextOf (step (booted [0xC6#8, 0x3F#8, 0x05#8]))).map (·.cursor)) = some 3 := by decide

/-- WidthOnlyNamesRegisters: both directions, a register and a memory operand. -/
theorem witness_WidthOnlyNamesRegisters :
    recordOf (rmRegInstr 0#1 0#1 (.reg 6#3) 1#3) = recordMovRm8R8 (.reg 6#3) 1#3 ∧
      recordOf (rmRegInstr 1#1 1#1 (.disp8 6#3 0#8) 1#3) = recordMovR16Rm16 1#3 (.disp8 6#3 0#8) ∧
      (Rm.disp8 6#3 0#8).mode ≠ 0b11#2 ∧ (Rm.reg 6#3).mode = 0b11#2 := by decide

/-- A booted state that is not the reset state meets the invariant. -/
theorem inv_booted_one : (booted [0x89#8, 0xD9#8]).Inv where
  buf_wf := by decide
  cursor_le := by decide
  output_ok := ⟨[], rfl, by simp, rfl⟩
  run_record := fun _ => rfl
  done_end := fun h => nomatch h
  fault_record := fun h => nomatch h

/-- A DONE state meets the invariant. -/
theorem inv_done : (booted []).markDone.Inv where
  buf_wf := by decide
  cursor_le := by decide
  output_ok := ⟨[], rfl, by simp, rfl⟩
  run_record := fun h => nomatch h
  done_end := fun _ => ⟨rfl, rfl⟩
  fault_record := fun h => nomatch h

theorem witness_DoneExactlyAtTheEnd_record :
    (booted []).markDone.Inv ∧ (booted []).markDone.status = .done := ⟨inv_done, rfl⟩

theorem witness_StepKeepsInvariant : (booted [0x89#8, 0xD9#8]).Inv ∧
    ((nextOf (step (booted [0x89#8, 0xD9#8]))).map (·.cursor)) = some 2 := ⟨inv_booted_one, by decide⟩

theorem witness_RunEndsWithinBound :
    (booted [0xB0#8, 0x7F#8, 0x90#8]).status = .run ∧
      (booted [0xB0#8, 0x7F#8, 0x90#8]).cursor ≤ (booted [0xB0#8, 0x7F#8, 0x90#8]).buf.len := by decide

theorem witness_SupportedBufferEndsDone :
    ∀ i ∈ [Instr.movR16Imm16 1#3 12#16, .movRm16R16 (.reg 1#3) 3#3], i.wf = true := by decide

theorem witness_CursorFitsItsRegister : Config.FitsCursorBits 2 (booted [0x89#8, 0xD9#8]).buf.len ∧
    (booted [0x89#8, 0xD9#8]).Inv ∧
    ((nextOf (step (booted [0x89#8, 0xD9#8]))).map (·.cursor)) = some 2 :=
  ⟨by decide, inv_booted_one, by decide⟩

theorem witness_EqualBuffersAreEqualData :
    ((Memory.ofBytes [0#8]).place 0 7#8).wf = true ∧ (Memory.ofBytes [7#8]).wf = true ∧
      ((Memory.ofBytes [0#8]).place 0 7#8).len = (Memory.ofBytes [7#8]).len ∧
      ∀ a, a < ((Memory.ofBytes [0#8]).place 0 7#8).len →
        ((Memory.ofBytes [0#8]).place 0 7#8).read a = (Memory.ofBytes [7#8]).read a := by decide

theorem witness_EachDecodeStepAddsOneLine :
    (after [0xB1#8, 0x0C#8]).map (·.1) = some .run ∧ (after []).map (·.1) = some .done := by decide

/-- DecimalText: zero, and the two sides of 0 where its clauses on signed numbers meet (R78). -/
theorem witness_DecimalText : (dec 0).head? = some '0' ∧ decs 0 = ['0'] ∧ decs (-1) = ['-', '1'] := by
  decide

theorem witness_AcceptedLeadBytes :
    ∃ p ∈ patternTable, p.value = opcodeCandidate p.width 0x88#8 := by decide

/-- BootHoldsInvariant, SupportedBufferEndsDone, RunIsFunctionOfBytes: the host boots a block whose run has
ended, in DONE and in FAULT. -/
theorem witness_boot :
    (State.reset.markDone.status ≠ .run ∧
      State.reset.markDone.boot [0xB9#8, 0x0C#8, 0x00#8, 0x89#8, 0xD9#8] =
        some (booted (encode (.movR16Imm16 1#3 12#16) ++ encode (.movRm16R16 (.reg 1#3) 3#3)))) ∧
    (((booted [0x90#8]).raise .unrecognizedOpcode [0x90#8] 0).boot [0x90#8] = some (booted [0x90#8])) := by
  decide

theorem witness_BootHoldsInvariant :
    (booted [0x90#8]).status = .run ∧ State.reset.markDone.status ≠ .run ∧
      (Memory.ofBytes [0#8, 7#8]).wf = true := by decide

/-- ResetSetsEverythingButTheBuffer: a host move in RUN that answers a state. -/
theorem witness_ResetSetsEverythingButTheBuffer :
    State.reset.status = .run ∧ State.reset.hostMove .reset = some State.reset := by decide

theorem witness_HeaderExactlyOnceAndFirst : (booted [0x89#8, 0xD9#8]).Inv := inv_booted_one

end Sys2Proof.Tests
end

section
/-! Runs of several steps, and the buffer along them (R19). -/

namespace Sys2Proof.Machine

/-! ### Runs of several steps -/

@[simp] theorem runSteps_zero (s : State) : runSteps 0 s = .next s := rfl

/-- A run of one step more that answers a state is a step and then a run. -/
theorem runSteps_succ_eq_next {k : Nat} {s t : State} :
    runSteps (k + 1) s = .next t ↔ ∃ u, step s = .next u ∧ runSteps k u = .next t := by
  have hcore : core.step s = step s := rfl
  simp only [runSteps, Host.Core.run, hcore]
  cases step s <;> simp

/-- What every step keeps, a run keeps. -/
theorem runSteps_keeps {P : State → Prop} (hstep : ∀ u v, step u = .next v → P u → P v)
    {k : Nat} {s t : State} (h : runSteps k s = .next t) (hs : P s) : P t := by
  induction k generalizing s with
  | zero =>
    obtain rfl : s = t := by simpa using h
    exact hs
  | succ k ih =>
    obtain ⟨u, hu, ht⟩ := runSteps_succ_eq_next.mp h
    exact ih ht (hstep s u hu hs)

/-! ### The buffer -/

/-- Completing an instruction leaves the buffer as it is, whether it emits a record or raises a fault. -/
theorem retire_next_buf {minLen : Nat} {r : Record} {s t : State}
    (h : retire minLen r s = .next t) : t.buf = s.buf := by
  obtain ⟨-, _, -, ⟨-, rfl⟩ | ⟨-, -, rfl⟩ | ⟨-, -, rfl⟩⟩ := retire_next_cases h
  · rw [State.raise_buf]
  · rw [State.raise_buf]
  · rw [State.advance_buf, State.emit_buf]

theorem exec_next_buf {i : Instr} {s t : State} (h : exec i s = .next t) : t.buf = s.buf :=
  retire_next_buf (exec_eq_retire i s ▸ h)

/-- A step ends the run, runs an instruction or raises a fault, and none of them writes the buffer (R19). -/
theorem step_next_buf {s t : State} (h : step s = .next t) : t.buf = s.buf := by
  obtain ⟨-, ⟨-, rfl⟩ | ⟨-, _, -, ⟨i, -, hexec⟩ | ⟨_, -, rfl⟩ | ⟨_, -, rfl⟩⟩⟩ := step_next_cases h
  · rw [State.markDone_buf]
  · exact exec_next_buf hexec
  · rw [State.raise_buf]
  · rw [State.raise_buf]

theorem runSteps_next_buf {k : Nat} {s t : State} (h : runSteps k s = .next t) : t.buf = s.buf :=
  runSteps_keeps (P := fun u => u.buf = s.buf) (fun _ _ huv hu => (step_next_buf huv).trans hu) h rfl

/-- Settles O40: no step writes the buffer, so no run does, and equal buffers have equal lengths and bytes. -/
theorem bufferNeverWritten : Obligations.BufferNeverWritten := by
  intro k s t h
  have hbuf : t.buf = s.buf := runSteps_next_buf h
  exact ⟨congrArg Memory.len hbuf, fun a => congrArg (Memory.read · a) hbuf, hbuf⟩

end Sys2Proof.Machine
end

section
/-! The decoder on the formats of R52 and R53: the dispatcher's chain, the fields of a lead byte, the r/m operand
mode by mode, and the length of what decodes (30_encoding.md sections 1 to 6). -/

namespace Sys2Proof

/-! ### The fields of byte 1 (R50) -/

theorem modOf_toNat (b1 : Byte) : (modOf b1).toNat = b1.toNat / 64 := by
  have := b1.isLt
  simp only [modOf, BitVec.extractLsb'_toNat, Nat.shiftRight_eq_div_pow]
  omega

theorem regOf_toNat (b1 : Byte) : (regOf b1).toNat = b1.toNat / 8 % 8 := by
  simp only [regOf, BitVec.extractLsb'_toNat, Nat.shiftRight_eq_div_pow]

theorem rmOf_toNat (b1 : Byte) : (rmOf b1).toNat = b1.toNat % 8 := by
  simp only [rmOf, BitVec.extractLsb'_toNat, Nat.shiftRight_zero]

/-! ### The dispatcher -/

/-- The candidate of R49 is the slice of the byte's top bits. -/
theorem opcodeCandidate_eq_toNat_extractLsb' {width : Nat} (h : width ≤ 8) (b0 : Byte) :
    opcodeCandidate width b0 = (b0.extractLsb' (8 - width) width).toNat := by
  have hlt : b0.toNat / 2 ^ (8 - width) < 2 ^ width := by
    rw [Nat.div_lt_iff_lt_mul (Nat.two_pow_pos _), ← Nat.pow_add, Nat.add_sub_cancel' h]
    exact b0.isLt
  rw [opcodeCandidate, BitVec.extractLsb'_toNat, Nat.shiftRight_eq_div_pow, Nat.mod_eq_of_lt hlt]

/-- A candidate equals a pattern's value where the slice has the value's bits. -/
theorem opcodeCandidate_eq_toNat {width : Nat} (h : width ≤ 8) (v : BitVec width) (b0 : Byte) :
    opcodeCandidate width b0 = v.toNat ↔ b0.extractLsb' (8 - width) width = v := by
  rw [opcodeCandidate_eq_toNat_extractLsb' h, BitVec.toNat_inj]

/-- The table has one pattern of each of its widths, so a lookup is one comparison (R55). -/
theorem lookupPattern_of_mem {p : Pattern} (hp : p ∈ patternTable) (b0 : Byte) :
    lookupPattern p.width b0 = if opcodeCandidate p.width b0 = p.value then some p else none := by
  simp only [patternTable, List.mem_cons, List.not_mem_nil, or_false] at hp
  by_cases hit : opcodeCandidate p.width b0 = p.value
  · rcases hp with rfl | rfl | rfl <;> simp_all [lookupPattern, patternTable]
  · have miss := Ne.symm hit
    rcases hp with rfl | rfl | rfl <;> simp_all [lookupPattern, patternTable]

/-- The dispatcher as the chain of R56 over the slices c7, c6 and c4. -/
theorem dispatch_eq (b0 : Byte) : dispatch b0 =
    if b0.extractLsb' 1 7 = 0b1100011#7 then some .irm
    else if b0.extractLsb' 2 6 = 0b100010#6 then some .rm
    else if b0.extractLsb' 4 4 = 0b1011#4 then some .ir
    else none := by
  have hseven := lookupPattern_of_mem (p := ⟨7, 0b1100011, .mov, .irm⟩) (by decide) b0
  have hsix := lookupPattern_of_mem (p := ⟨6, 0b100010, .mov, .rm⟩) (by decide) b0
  have hfour := lookupPattern_of_mem (p := ⟨4, 0b1011, .mov, .ir⟩) (by decide) b0
  have c7 : opcodeCandidate 7 b0 = 0b1100011 ↔ b0.extractLsb' 1 7 = 0b1100011#7 :=
    opcodeCandidate_eq_toNat (by omega) 0b1100011#7 b0
  have c6 : opcodeCandidate 6 b0 = 0b100010 ↔ b0.extractLsb' 2 6 = 0b100010#6 :=
    opcodeCandidate_eq_toNat (by omega) 0b100010#6 b0
  have c4 : opcodeCandidate 4 b0 = 0b1011 ↔ b0.extractLsb' 4 4 = 0b1011#4 :=
    opcodeCandidate_eq_toNat (by omega) 0b1011#4 b0
  simp only [dispatch, hseven, hsix, hfour, c7, c6, c4]
  split
  · rfl
  · split
    · rfl
    · split <;> rfl

/-- A lead byte with no pattern is refused, whatever follows it (R110). -/
theorem decode_of_dispatch_none {b0 : Byte} (h : dispatch b0 = none) (rest : List Byte) :
    decode (b0 :: rest) = .error (.unrecognizedOpcode b0) := by
  simp only [decode, h]

/-- A matched lead byte decodes where the bytes of its full length are there (R74, R84). -/
theorem decode_of_dispatch_some {b0 : Byte} {fam : Family} (h : dispatch b0 = some fam)
    {rest : List Byte} (hlen : encodedLength fam b0 (byteAt rest 0) ≤ (b0 :: rest).length) :
    decode (b0 :: rest) = .ok (decodeFamily fam (b0 :: rest)) := by
  have hmin := minLength_le_encodedLength fam b0 (byteAt rest 0)
  simp only [decode, h, if_neg (Nat.not_lt.mpr (hmin.trans hlen)), byteAt_succ]
  exact if_neg (Nat.not_lt.mpr hlen)

/-! ### The lead bytes of families RM and IR, bit by bit (R52, R53) -/

@[simp] theorem dispatch_leadRM (d w : BitVec 1) : dispatch (0b100010#6 ++ d ++ w) = some .rm := by
  revert d w; decide

@[simp] theorem dirBit_leadRM (d w : BitVec 1) :
    dirBit (0b100010#6 ++ d ++ w) = (d == 1#1) := by
  revert d w; decide

@[simp] theorem widthLow_leadRM (d w : BitVec 1) :
    widthLow (0b100010#6 ++ d ++ w) = widthOfBit (w == 1#1) := by
  revert d w; decide

@[simp] theorem dispatch_leadIR (w : BitVec 1) (reg : Key) :
    dispatch (0b1011#4 ++ w ++ reg) = some .ir := by
  revert w reg; decide

@[simp] theorem widthIR_leadIR (w : BitVec 1) (reg : Key) :
    widthIR (0b1011#4 ++ w ++ reg) = widthOfBit (w == 1#1) := by
  revert w reg; decide

theorem encodedLength_leadIR (w : BitVec 1) (reg : Key) (b1 : Byte) :
    encodedLength .ir (0b1011#4 ++ w ++ reg) b1 = if w = 0#1 then 2 else 3 := by
  rw [encodedLength, widthIR_leadIR]
  obtain rfl | rfl := BitVec.eq_zero_or_eq_one w <;> rfl

@[simp] theorem regIR_leadIR (w : BitVec 1) (reg : Key) :
    regIR (0b1011#4 ++ w ++ reg) = reg := by
  revert w reg; decide

/-! ### The r/m operand (R60 to R66) -/

theorem decodeOperand_of_mode_11 {m : ModeField} (hm : m = 0b11#2) (k : Key) (win : List Byte) :
    decodeOperand m k win = .reg k := by
  subst hm; rfl

theorem decodeOperand_of_mode_00 {m : ModeField} (hm : m = 0b00#2) {k : Key} (hk : k ≠ 0b110#3)
    (win : List Byte) : decodeOperand m k win = .base k := by
  subst hm; exact if_neg hk

theorem decodeOperand_direct {m : ModeField} (hm : m = 0b00#2) {k : Key} (hk : k = 0b110#3)
    (win : List Byte) : decodeOperand m k win = .direct (wordAt win 2) := by
  subst hm hk; rfl

theorem decodeOperand_of_mode_01 {m : ModeField} (hm : m = 0b01#2) (k : Key) (win : List Byte) :
    decodeOperand m k win = .disp8 k (byteAt win 2) := by
  subst hm; rfl

theorem decodeOperand_of_mode_10 {m : ModeField} (hm : m = 0b10#2) (k : Key) (win : List Byte) :
    decodeOperand m k win = .disp16 k (wordAt win 2) := by
  subst hm; rfl

/-- The five addressing modes (R60, R61). -/
theorem mode_cases (m : ModeField) (k : Key) :
    m = 0b11#2 ∨ (m = 0b00#2 ∧ k = 0b110#3) ∨ (m = 0b00#2 ∧ k ≠ 0b110#3) ∨ m = 0b01#2 ∨
      m = 0b10#2 := by
  revert m k; decide

theorem extra_eq_of_mode (m : ModeField) (k : Key) :
    extra m k = if m = 0b01#2 then 1 else if m = 0b10#2 ∨ (m = 0b00#2 ∧ k = 0b110#3) then 2 else 0 := by
  revert m k; decide

theorem wordBytes_le16 (lo hi : Byte) : wordBytes (le16 lo hi) = [lo, hi] := by
  simp [wordBytes]

/-- What is decoded from mod, rm and the extra bytes spells them again. -/
theorem decodeOperand_spells (m : ModeField) (k : Key) (win : List Byte) :
    (decodeOperand m k win).mode = m ∧ (decodeOperand m k win).key = k ∧
      (decodeOperand m k win).extraBytes =
        [byteAt win 2, byteAt win 3].take (Sys2Proof.extra m k) := by
  rcases mode_cases m k with rfl | ⟨rfl, rfl⟩ | ⟨rfl, hk⟩ | rfl | rfl
  · exact ⟨rfl, rfl, rfl⟩
  · rw [decodeOperand_direct rfl rfl]
    exact ⟨rfl, rfl, wordBytes_le16 _ _⟩
  · rw [decodeOperand_of_mode_00 rfl hk]
    exact ⟨rfl, rfl, by simp [Rm.extraBytes, extra, hk]⟩
  · exact ⟨rfl, rfl, rfl⟩
  · rw [decodeOperand_of_mode_10 rfl]
    exact ⟨rfl, rfl, wordBytes_le16 _ _⟩

/-- No encoding spells the one ill-formed operand (R64). -/
theorem decodeOperand_wf (m : ModeField) (k : Key) (win : List Byte) :
    (decodeOperand m k win).wf = true := by
  rcases mode_cases m k with rfl | ⟨rfl, rfl⟩ | ⟨rfl, hk⟩ | rfl | rfl
  · rfl
  · rfl
  · rw [decodeOperand_of_mode_00 rfl hk]
    simpa [Rm.wf] using hk
  · rfl
  · rfl

@[simp] theorem decodeOperand_extra (m : ModeField) (k : Key) (win : List Byte) :
    (decodeOperand m k win).extra = extra m k := by
  obtain ⟨hmode, hkey, -⟩ := decodeOperand_spells m k win
  rw [← Rm.extra_eq (decodeOperand_wf m k win), hmode, hkey]

/-- The operand reads no byte past window offset 3 (R61). -/
theorem decodeOperand_take {n : Nat} (hn : 4 ≤ n) (m : ModeField) (k : Key) (win : List Byte) :
    decodeOperand m k (win.take n) = decodeOperand m k win := by
  simp only [decodeOperand, wordAt, byteAt_take (show 2 < n by omega),
    byteAt_take (show 2 + 1 < n by omega)]

/-! ### The length of what decodes (R69, R70) -/

theorem decodeFamily_length (fam : Family) (win : List Byte) :
    (decodeFamily fam win).length = encodedLength fam (byteAt win 0) (byteAt win 1) := by
  cases fam with
  | rm =>
    simp only [decodeFamily, decodeRmReg, encodedLength]
    split <;> simp [Instr.length]
  | ir =>
    simp only [decodeFamily, decodeImmReg, encodedLength]
    cases widthIR (byteAt win 0) <;> rfl
  | irm =>
    simp only [decodeFamily, decodeImmRm, encodedLength]
    cases widthLow (byteAt win 0) <;> simp [Instr.length, immSize] <;> omega

/-- What decodes is all there. -/
theorem length_le_of_decode {bs : List Byte} {i : Instr} (h : decode bs = .ok i) :
    i.length ≤ bs.length := by
  cases bs with
  | nil => cases h
  | cons b0 rest =>
    rcases decode_cons b0 rest with
      ⟨-, he⟩ | ⟨fam, -, ⟨-, he⟩ | ⟨-, -, he⟩ | ⟨hlen, he⟩⟩ <;> rw [he] at h <;> cases h
    rw [decodeFamily_length]
    exact hlen

end Sys2Proof
end

section
/-! The formats, the fields and the dispatcher (30_encoding.md sections 1 to 3 and 7). -/

namespace Sys2Proof.Machine

/-- The direction and width bits alone tell the four instructions of family RM apart (R52). -/
theorem decodeRmReg_leadRM (d w : BitVec 1) (b1 : Byte) (rest : List Byte) :
    decodeRmReg ((0b100010#6 ++ d ++ w) :: b1 :: rest) =
      rmRegInstr d w
        (decodeOperand (modOf b1) (rmOf b1) ((0b100010#6 ++ d ++ w) :: b1 :: rest)) (regOf b1) := by
  simp only [decodeRmReg, byteAt_zero, byteAt_succ, dirBit_leadRM, widthLow_leadRM]
  obtain rfl | rfl := BitVec.eq_zero_or_eq_one d <;> obtain rfl | rfl := BitVec.eq_zero_or_eq_one w <;>
    rfl

/-- The width bit alone tells the two instructions of family IR apart (R53). -/
theorem decodeImmReg_leadIR (w : BitVec 1) (reg : Key) (i : Byte) (rest : List Byte) :
    decodeImmReg ((0b1011#4 ++ w ++ reg) :: i :: rest) =
      if w = 0#1 then .movR8Imm8 reg i else .movR16Imm16 reg (le16 i (byteAt rest 0)) := by
  simp only [decodeImmReg, wordAt, byteAt_zero, byteAt_succ, widthIR_leadIR, regIR_leadIR]
  obtain rfl | rfl := BitVec.eq_zero_or_eq_one w <;> rfl

theorem rmRegInstr_length (d w : BitVec 1) (rm : Rm) (reg : Key) :
    (rmRegInstr d w rm reg).length = 2 + rm.extra := by
  unfold rmRegInstr
  split <;> split <;> rfl

/-- Settles O3: the lead byte selects family RM, two extra bytes are enough for every mode, and the operand
decoded spells mod, rm and its extra bytes again. -/
theorem formatRMDecodes : Obligations.FormatRMDecodes := by
  intro d w mod reg rm lo hi rest
  have hb1 : mod ++ reg ++ rm = modRegRm mod reg rm := rfl
  have hextra := extra_le mod rm
  obtain ⟨hmode, hkey, hbytes⟩ := decodeOperand_spells mod rm
    ((0b100010#6 ++ d ++ w) :: modRegRm mod reg rm :: lo :: hi :: rest)
  refine ⟨_, hmode, hkey, hbytes, ?_, by rw [rmRegInstr_length, decodeOperand_extra], ?_⟩
  · rw [hb1, decode_of_dispatch_some (dispatch_leadRM d w), decodeFamily, decodeRmReg_leadRM]
    · simp
    · simp [encodedLength]; omega
  · exact extra_eq_of_mode mod rm

/-- Settles O4: the lead byte selects family IR, and its bit 3 alone gives the width and so the length. -/
theorem formatIRDecodes : Obligations.FormatIRDecodes := by
  intro reg i j rest
  refine ⟨?_, rfl, ?_, rfl⟩
  · rw [decode_of_dispatch_some (dispatch_leadIR 0#1 reg), decodeFamily, decodeImmReg_leadIR, if_pos rfl]
    rw [encodedLength_leadIR, if_pos rfl]
    exact Nat.le_add_left 2 _
  · rw [decode_of_dispatch_some (dispatch_leadIR 1#1 reg), decodeFamily, decodeImmReg_leadIR,
      if_neg (by decide), byteAt_zero]
    rw [encodedLength_leadIR, if_neg (by decide)]
    exact Nat.le_add_left 3 _

/-- Settles O12: no instruction is longer than six bytes, so with five after the lead byte both presence checks
pass, and nothing else is checked. -/
theorem everyFieldCombinationDecodes : Obligations.EveryFieldCombinationDecodes := by
  intro b0 rest hmatch hfive
  obtain ⟨fam, hfam⟩ := Option.ne_none_iff_exists'.mp hmatch
  obtain ⟨-, hsix⟩ := encodedLength_bounds fam b0 (byteAt rest 0)
  exact ⟨_, decode_of_dispatch_some hfam (by rw [List.length_cons]; omega)⟩

/-- Settles O7: each field is a slice of byte 1, shifted down and cut off. -/
theorem byte1Fields : Obligations.Byte1Fields :=
  fun b1 => ⟨modOf_toNat b1, regOf_toNat b1, rmOf_toNat b1⟩

/-- Settles O8: the dispatcher is the chain of R56, and what it does not match is refused. -/
theorem dispatchTriesSevenSixFour : Obligations.DispatchTriesSevenSixFour :=
  ⟨dispatch_eq, fun _ rest h => decode_of_dispatch_none h rest⟩

end Sys2Proof.Machine
end

section
/-! The text of an operand (R79). -/

namespace Sys2Proof.Machine

/-- The displacement's magnitude is the displacement above 0 and its negation below (R79). -/
theorem dispTerm_eq (disp : Int) : dispTerm disp =
    if disp > 0 then [' ', '+', ' '] ++ dec disp.toNat
    else if disp < 0 then [' ', '-', ' '] ++ dec (-disp).toNat
    else [] := by
  unfold dispTerm
  split
  · rw [show disp.natAbs = disp.toNat by omega]
  · split
    · rw [show disp.natAbs = (-disp).toNat by omega]
    · rfl

/-- At displacement 0 an indexed operand is its base registers alone (R63). -/
theorem renderOp_indexedMemory_zero (p : RegName) (sec : Option RegName) :
    renderOp (.indexedMemory p sec 0) = ['['] ++ p.text ++ secondaryTerm sec ++ [']'] := by
  have hdisp : dispTerm 0 = [] := rfl
  rw [renderOp, hdisp, List.append_nil]

/-- Settles O55: a register, an address and an immediate render as written; the terms of an indexed operand are
split by whether there is a secondary base and by the displacement's sign. -/
theorem operandRendering : Obligations.OperandRendering := by
  refine ⟨fun _ => rfl, fun _ => rfl, fun p sec disp => ?_, fun _ => ⟨rfl, rfl, rfl⟩⟩
  rw [← dispTerm_eq]
  cases sec <;> rfl

end Sys2Proof.Machine
end

section
/-! The addressing modes of families RM and IRM (30_encoding.md section 4). -/

namespace Sys2Proof.Machine

/-! ### A step that completes -/

/-- In RUN, a step whose window decodes emits the instruction's record and advances by its length. -/
theorem step_of_decode {s : State} {i : Instr} (hrun : s.status = .run)
    (hdec : decode (s.remaining.take 6) = .ok i) :
    step s = .next ((s.emit (recordOf i)).advance i.length) := by
  have hlen := length_le_of_decode hdec
  have hcheck := firstCheck_le i
  have htwo := (Instr.length_bounds i).1
  have hcursor : s.cursor < s.buf.len := by
    rw [List.length_take, State.length_remaining] at hlen
    omega
  rw [step_eq hrun hcursor, hdec]
  show exec i s = _
  rw [exec_eq_retire, ← recordOf_length i]
  exact retire_completes hrun (State.window_eq hcursor.le) (by omega) (by rwa [recordOf_length])

/-- In family RM the direction bit says which side mod and rm give (R96). -/
theorem recordOf_decodeRmReg_rm (win : List Byte) :
    (if dirBit (byteAt win 0) then (recordOf (decodeRmReg win)).src
      else (recordOf (decodeRmReg win)).dest) =
      rmOperand (widthLow (byteAt win 0))
        (decodeOperand (modOf (byteAt win 1)) (rmOf (byteAt win 1)) win) := by
  simp only [decodeRmReg]
  cases dirBit (byteAt win 0) <;> cases widthLow (byteAt win 0) <;> rfl

/-- In family IRM the destination is what mod and rm give (R106). -/
theorem recordOf_decodeImmRm_dest (win : List Byte) :
    (recordOf (decodeImmRm win)).dest = rmOperand (widthLow (byteAt win 0))
      (decodeOperand (modOf (byteAt win 1)) (rmOf (byteAt win 1)) win) := by
  simp only [decodeImmRm]
  cases widthLow (byteAt win 0) <;> rfl

/-- The lead bytes with a mod byte after them: family RM, which has no immediate, or family IRM (R58). -/
theorem rmLeadBytes_cases {b0 : Byte} (h : b0 ∈ rmLeadBytes) :
    (dispatch b0 = some .rm ∧ immBytesOf b0 = 0 ∧
        (b0 = 0x8A#8 ∨ b0 = 0x8B#8 ↔ dirBit b0 = true)) ∨
      (dispatch b0 = some .irm ∧ immBytesOf b0 = immSize (widthLow b0) ∧
        ¬(b0 = 0x8A#8 ∨ b0 = 0x8B#8)) := by
  revert b0; decide

/-- Such a lead byte selects a family whose length is that of the operand and the immediate, and whose record's
r/m side is the operand mod and rm give. -/
theorem family_of_mem_rmLeadBytes {b0 : Byte} (h : b0 ∈ rmLeadBytes) :
    ∃ fam, dispatch b0 = some fam ∧
      (∀ b1, encodedLength fam b0 b1 = 2 + extra (modOf b1) (rmOf b1) + immBytesOf b0) ∧
      ∀ b1 rest, rmSide b0 (recordOf (decodeFamily fam (b0 :: b1 :: rest))) =
        rmOperand (widthLow b0) (decodeOperand (modOf b1) (rmOf b1) (b0 :: b1 :: rest)) := by
  rcases rmLeadBytes_cases h with ⟨hfam, himm, hdir⟩ | ⟨hfam, himm, hdir⟩
  · refine ⟨.rm, hfam, fun b1 => by rw [himm]; rfl, fun b1 rest => ?_⟩
    simp only [rmSide, hdir]
    exact recordOf_decodeRmReg_rm (b0 :: b1 :: rest)
  · refine ⟨.irm, hfam, fun b1 => by rw [himm]; rfl, fun b1 rest => ?_⟩
    rw [rmSide, if_neg hdir]
    exact recordOf_decodeImmRm_dest (b0 :: b1 :: rest)

/-- Where the bytes of the operand and of the immediate are there, the step completes, and the record's r/m side
is the operand decoded. -/
theorem step_of_mem_rmLeadBytes {s : State} {b0 b1 : Byte} {rest : List Byte} {rm : Rm}
    (hrun : s.status = .run) (hlead : b0 ∈ rmLeadBytes) (hrem : s.remaining = b0 :: b1 :: rest)
    (hrm : decodeOperand (modOf b1) (rmOf b1) (b0 :: b1 :: rest) = rm)
    (hlen : rm.extra + immBytesOf b0 ≤ rest.length) :
    ∃ r : Record, step s = .next ((s.emit r).advance r.length) ∧
      r.length = 2 + rm.extra + immBytesOf b0 ∧ rmSide b0 r = rmOperand (widthLow b0) rm := by
  obtain ⟨fam, hfam, hlength, hside⟩ := family_of_mem_rmLeadBytes hlead
  obtain ⟨-, hsix⟩ := encodedLength_bounds fam b0 b1
  have hextra : extra (modOf b1) (rmOf b1) = rm.extra := by rw [← hrm, decodeOperand_extra]
  rw [hlength, hextra] at hsix
  have hwin : s.remaining.take 6 = b0 :: b1 :: rest.take 4 := by rw [hrem]; rfl
  have hdec : decode (b0 :: b1 :: rest.take 4) =
      .ok (decodeFamily fam (b0 :: b1 :: rest.take 4)) := by
    refine decode_of_dispatch_some hfam ?_
    simp only [byteAt_zero, hlength, hextra, List.length_cons, List.length_take]
    omega
  refine ⟨recordOf (decodeFamily fam (b0 :: b1 :: rest.take 4)), ?_, ?_, ?_⟩
  · rw [recordOf_length]
    exact step_of_decode hrun (hwin ▸ hdec)
  · rw [recordOf_length, decodeFamily_length, byteAt_zero, byteAt_succ, byteAt_zero, hlength, hextra]
  · rw [hside, ← hrm, ← decodeOperand_take (n := 6) (by omega) _ _ (b0 :: b1 :: rest)]
    rfl

/-! ### Signed displacements -/

theorem s8_bounds (b : Byte) : -128 ≤ s8 b ∧ s8 b ≤ 127 := by
  have := b.isLt
  simp only [s8, BitVec.toInt_eq_toNat_cond]
  omega

theorem s16_bounds (v : Word) : -32768 ≤ s16 v ∧ s16 v ≤ 32767 := by
  have := v.isLt
  simp only [s16, BitVec.toInt_eq_toNat_cond]
  omega

/-- The sign of a 16-bit value is that of its high byte (R9, R66). -/
theorem s16_le16 (lo hi : Byte) : s16 (le16 lo hi) = hi.toInt * 256 + lo.toNat := by
  have := lo.isLt
  have := hi.isLt
  simp only [s16, BitVec.toInt_eq_toNat_cond, le16_toNat]
  omega

/-! ### The modes -/

/-- Settles O26: at mod = 11 the operand is `reg rm`, which takes no extra byte. -/
theorem registerDirectMode : Obligations.RegisterDirectMode := by
  intro s b0 b1 rest hrun hlead hrem hmod himm
  exact step_of_mem_rmLeadBytes hrun hlead hrem (decodeOperand_of_mode_11 hmod _ _)
    (by simpa [Rm.extra] using himm)

/-- Settles O27: at mod = 00 and rm ≠ 110 the operand is `base rm`, whose displacement 0 has no term. -/
theorem memoryModeNoDisplacement : Obligations.MemoryModeNoDisplacement := by
  intro s b0 b1 rest hrun hlead hrem hmod hrm himm
  obtain ⟨r, hstep, hlen, hside⟩ := step_of_mem_rmLeadBytes hrun hlead hrem
    (decodeOperand_of_mode_00 hmod hrm _) (by simpa [Rm.extra] using himm)
  rcases hbase : eaBase (rmOf b1) with ⟨p, sec⟩
  have hindexed : rmSide b0 r = .indexedMemory p sec 0 := by rw [hside, rmOperand, baseOperand, hbase]
  refine ⟨r, p, sec, rfl, hstep, hlen, hindexed, ?_⟩
  rw [hindexed, renderOp_indexedMemory_zero]
  cases sec <;> rfl

/-- Settles O29: at mod = 01 the operand is `disp8 rm disp` with the byte at window offset 2. -/
theorem memoryModeDisp8 : Obligations.MemoryModeDisp8 := by
  intro s b0 b1 disp rest hrun hlead hrem hmod himm
  obtain ⟨r, hstep, hlen, hside⟩ := step_of_mem_rmLeadBytes hrun hlead hrem
    (decodeOperand_of_mode_01 hmod _ _) (by simp only [Rm.extra, List.length_cons]; omega)
  exact ⟨r, hstep, hlen, hside, s8_bounds disp⟩

/-- Settles O30: at mod = 10 the operand is `disp16 rm disp` with the value at window offset 2. -/
theorem memoryModeDisp16 : Obligations.MemoryModeDisp16 := by
  intro s b0 b1 lo hi rest hrun hlead hrem hmod himm
  obtain ⟨r, hstep, hlen, hside⟩ := step_of_mem_rmLeadBytes hrun hlead hrem
    (decodeOperand_of_mode_10 hmod _ _) (by simp only [Rm.extra, List.length_cons]; omega)
  exact ⟨r, s16 (le16 lo hi), hstep, hlen, hside, s16_le16 lo hi, s16_bounds _⟩

end Sys2Proof.Machine
end

section
/-! Decoding reads only the bytes of the instruction it answers (40_decode_cycle.md section 1). -/

namespace Sys2Proof

/-! ### Lists that agree on their first bytes -/

theorem wordAt_take {bs : List Byte} {n k : Nat} (h : k + 1 < n) :
    wordAt (bs.take n) k = wordAt bs k := by
  simp only [wordAt, byteAt_take h, byteAt_take (Nat.lt_of_succ_lt h)]

theorem byteAt_eq_of_take_eq {bs other : List Byte} {n k : Nat} (htake : other.take n = bs.take n)
    (hk : k < n) : byteAt other k = byteAt bs k := by
  rw [← byteAt_take hk, htake, byteAt_take hk]

/-! ### The bytes each family reads -/

/-- The operand reads no byte past its own extra bytes (R60, R61). -/
theorem decodeOperand_take_of_extra_le {m : ModeField} {k : Key} {n : Nat} (hn : 2 + extra m k ≤ n)
    (win : List Byte) : decodeOperand m k (win.take n) = decodeOperand m k win := by
  rcases mode_cases m k with rfl | ⟨rfl, rfl⟩ | ⟨rfl, hk⟩ | rfl | rfl
  · rfl
  · rw [decodeOperand_direct rfl rfl, decodeOperand_direct rfl rfl, wordAt_take hn]
  · rw [decodeOperand_of_mode_00 rfl hk, decodeOperand_of_mode_00 rfl hk]
  · rw [decodeOperand_of_mode_01 rfl, decodeOperand_of_mode_01 rfl, byteAt_take hn]
  · rw [decodeOperand_of_mode_10 rfl, decodeOperand_of_mode_10 rfl, wordAt_take hn]

/-- A family reads no byte past the full length that bytes 0 and 1 give (R69). -/
theorem decodeFamily_take {fam : Family} {win : List Byte} {n : Nat}
    (hn : encodedLength fam (byteAt win 0) (byteAt win 1) ≤ n) :
    decodeFamily fam (win.take n) = decodeFamily fam win := by
  obtain ⟨htwo, -⟩ := encodedLength_bounds fam (byteAt win 0) (byteAt win 1)
  have hb0 : byteAt (win.take n) 0 = byteAt win 0 := byteAt_take (by omega)
  have hb1 : byteAt (win.take n) 1 = byteAt win 1 := byteAt_take (by omega)
  cases fam with
  | rm =>
    simp only [decodeFamily, decodeRmReg, hb0, hb1]
    rw [decodeOperand_take_of_extra_le hn]
  | ir =>
    simp only [encodedLength] at hn
    simp only [decodeFamily, decodeImmReg, hb0, hb1]
    cases hw : widthIR (byteAt win 0) with
    | byte => rfl
    | word =>
      rw [hw, immSize] at hn
      exact congrArg (Instr.movR16Imm16 _) (wordAt_take (by omega))
  | irm =>
    simp only [encodedLength] at hn
    simp only [decodeFamily, decodeImmRm, hb0, hb1]
    rw [decodeOperand_take_of_extra_le (by omega)]
    cases hw : widthLow (byteAt win 0) with
    | byte =>
      rw [hw, immSize] at hn
      exact congrArg (Instr.movRm8Imm8 _ _) (byteAt_take (by omega))
    | word =>
      rw [hw, immSize] at hn
      exact congrArg (Instr.movRm16Imm16 _ _) (wordAt_take (by omega))

/-! ### The decoder -/

/-- A list decodes exactly when its lead byte is matched and the bytes of the full length are there. The empty
list is no exception: the byte 00 that `byteAt` answers for it is matched by no pattern. -/
theorem decode_eq_ok {bs : List Byte} {i : Instr} :
    decode bs = .ok i ↔ ∃ fam, dispatch (byteAt bs 0) = some fam ∧
      encodedLength fam (byteAt bs 0) (byteAt bs 1) ≤ bs.length ∧ decodeFamily fam bs = i := by
  constructor
  · intro h
    cases bs with
    | nil => cases h
    | cons b0 rest =>
      rcases decode_cons b0 rest with
        ⟨-, he⟩ | ⟨fam, hfam, ⟨-, he⟩ | ⟨-, -, he⟩ | ⟨hlen, he⟩⟩ <;> rw [he] at h <;> cases h
      exact ⟨fam, hfam, hlen, rfl⟩
  · rintro ⟨fam, hfam, hlen, rfl⟩
    cases bs with
    | nil =>
      have hnone : dispatch (byteAt [] 0) = none := by decide
      rw [hnone] at hfam
      cases hfam
    | cons b0 rest => exact decode_of_dispatch_some hfam hlen

end Sys2Proof

namespace Sys2Proof.Machine

/-- Settles O11: the dispatcher, the length and the family are each settled by the first `i.length` bytes, which a
list that agrees on them has. -/
theorem decodeReadsOnlyItsBytes : Obligations.DecodeReadsOnlyItsBytes := by
  intro bs i h other htake
  obtain ⟨fam, hfam, hlen, rfl⟩ := decode_eq_ok.mp h
  rw [decodeFamily_length] at htake
  obtain ⟨htwo, -⟩ := encodedLength_bounds fam (byteAt bs 0) (byteAt bs 1)
  have hb0 : byteAt other 0 = byteAt bs 0 := byteAt_eq_of_take_eq htake (by omega)
  have hb1 : byteAt other 1 = byteAt bs 1 := byteAt_eq_of_take_eq htake (by omega)
  have hpresent : encodedLength fam (byteAt bs 0) (byteAt bs 1) ≤ other.length := by
    have := congrArg List.length htake
    rw [List.length_take, List.length_take] at this
    omega
  refine decode_eq_ok.mpr ⟨fam, by rw [hb0, hfam], by rwa [hb0, hb1], ?_⟩
  calc decodeFamily fam other
      = decodeFamily fam (other.take (encodedLength fam (byteAt bs 0) (byteAt bs 1))) :=
        (decodeFamily_take (by rw [hb0, hb1])).symm
    _ = decodeFamily fam bs := by rw [htake, decodeFamily_take le_rfl]

end Sys2Proof.Machine
end

section
/-! The end of a run (40_decode_cycle.md section 2). -/

namespace Sys2Proof.Machine

/-- In RUN at the buffer's end a step marks the run done (R92). -/
theorem step_at_end {s : State} (hrun : s.status = .run) (hend : s.cursor = s.buf.len) :
    step s = .next s.markDone := by
  rw [step, whileRunning_run hrun, if_pos hend]

/-- Completing an instruction leaves STATUS at RUN or raises a fault. -/
theorem retire_next_status_ne_done {minLen : Nat} {r : Record} {s t : State}
    (h : retire minLen r s = .next t) : t.status ≠ .done := by
  obtain ⟨hrun, _, -, ⟨-, rfl⟩ | ⟨-, -, rfl⟩ | ⟨-, -, rfl⟩⟩ := retire_next_cases h
  · simp
  · simp
  · simp [hrun]

theorem exec_next_status_ne_done {i : Instr} {s t : State} (h : exec i s = .next t) :
    t.status ≠ .done :=
  retire_next_status_ne_done (exec_eq_retire i s ▸ h)

/-- Of what a step can do, only the end of the run answers DONE. -/
theorem cursor_eq_len_of_step_done {s t : State} (h : step s = .next t) (hdone : t.status = .done) :
    s.cursor = s.buf.len := by
  obtain ⟨-, ⟨hend, -⟩ | ⟨-, _, -, ⟨i, -, hexec⟩ | ⟨_, -, rfl⟩ | ⟨_, -, rfl⟩⟩⟩ := step_next_cases h
  · exact hend
  · exact absurd hdone (exec_next_status_ne_done hexec)
  · simp at hdone
  · simp at hdone

/-- Settles O37: the end of the run is the only step that answers DONE, and in DONE the invariant puts the cursor,
which is the number of bytes the records took, at L. -/
theorem doneExactlyAtTheEnd : Obligations.DoneExactlyAtTheEnd := by
  refine ⟨fun s => step_at_end, fun s t => cursor_eq_len_of_step_done,
    fun i s t => exec_next_status_ne_done, fun s hinv hdone => ?_⟩
  obtain ⟨rs, hout, -, hsum⟩ := hinv.output_ok
  obtain ⟨hend, -⟩ := hinv.done_end hdone
  exact ⟨rs, hout, hsum.trans hend⟩

end Sys2Proof.Machine
end

section
/-! The faults a step raises (60_exceptions.md section 1). -/

namespace Sys2Proof

/-- Only a lead byte that no pattern matches is answered as unrecognized (R110). -/
theorem dispatch_eq_none_of_decode {b0 b : Byte} {rest : List Byte}
    (h : decode (b0 :: rest) = .error (.unrecognizedOpcode b)) : dispatch b0 = none := by
  rcases decode_cons b0 rest with
    ⟨hnone, -⟩ | ⟨fam, -, ⟨-, he⟩ | ⟨-, -, he⟩ | ⟨-, he⟩⟩
  · exact hnone
  all_goals rw [he] at h; cases h

/-- A matched lead byte with fewer bytes than its full length is truncated, whichever of the two presence checks
finds it (R111). -/
theorem decode_of_length_lt {b0 : Byte} {fam : Family} (h : dispatch b0 = some fam)
    {rest : List Byte} (hlen : (b0 :: rest).length < encodedLength fam b0 (byteAt rest 0)) :
    ∃ need, decode (b0 :: rest) = .error (.truncatedInstruction need) := by
  rcases decode_cons b0 rest with
    ⟨hnone, -⟩ | ⟨fam', hfam', ⟨-, he⟩ | ⟨-, -, he⟩ | ⟨hfull, -⟩⟩
  · exact absurd (h.symm.trans hnone) (by simp)
  · exact ⟨_, he⟩
  · exact ⟨_, he⟩
  · obtain rfl := Option.some.inj (h.symm.trans hfam')
    exact absurd hlen (Nat.not_lt.mpr hfull)

end Sys2Proof

namespace Sys2Proof.Machine

/-! ### What a step does to STATUS and the fault code -/

/-- Completing an instruction raises TruncatedInstruction, or stays in RUN and leaves the fault code. -/
theorem retire_next_faultCode {minLen : Nat} {r : Record} {s t : State}
    (h : retire minLen r s = .next t) :
    (t.status ≠ .fault ∧ t.faultCode = s.faultCode) ∨
      (t.status = .fault ∧ t.faultCode = FaultKind.truncatedInstruction.code) := by
  obtain ⟨hrun, _, -, ⟨-, rfl⟩ | ⟨-, -, rfl⟩ | ⟨-, -, rfl⟩⟩ := retire_next_cases h
  · exact .inr ⟨rfl, rfl⟩
  · exact .inr ⟨rfl, rfl⟩
  · exact .inl ⟨by simp [hrun], rfl⟩

theorem exec_next_faultCode {i : Instr} {s t : State} (h : exec i s = .next t) :
    (t.status ≠ .fault ∧ t.faultCode = s.faultCode) ∨
      (t.status = .fault ∧ t.faultCode = FaultKind.truncatedInstruction.code) :=
  retire_next_faultCode (exec_eq_retire i s ▸ h)

/-- A step leaves the fault code, or answers FAULT with the code of one of the two kinds that the model raises. Of
these UnrecognizedOpcode is the decoder's alone. -/
theorem step_next_faultCode {s t : State} (h : step s = .next t) :
    (t.status ≠ .fault ∧ t.faultCode = s.faultCode) ∨
      (t.status = .fault ∧ t.faultCode = FaultKind.truncatedInstruction.code) ∨
      (t.faultCode = FaultKind.unrecognizedOpcode.code ∧
        ∃ win b, s.window = some win ∧ decode win = .error (.unrecognizedOpcode b)) := by
  obtain ⟨-, ⟨-, rfl⟩ | ⟨-, win, hwin, ⟨i, -, hexec⟩ | ⟨b, hdec, rfl⟩ | ⟨_, -, rfl⟩⟩⟩ :=
    step_next_cases h
  · exact .inl ⟨by simp, rfl⟩
  · exact (exec_next_faultCode hexec).imp_right .inl
  · exact .inr (.inr ⟨rfl, win, b, hwin, hdec⟩)
  · exact .inr (.inl ⟨rfl, rfl⟩)

/-! ### A step that faults -/

theorem cursor_lt_of_remaining_eq_cons {s : State} {b0 : Byte} {rest : List Byte}
    (hrem : s.remaining = b0 :: rest) : s.cursor < s.buf.len := by
  have := congrArg List.length hrem
  rw [State.length_remaining, List.length_cons] at this
  omega

/-- In RUN, a lead byte with no pattern faults, whatever follows it (R110). -/
theorem step_of_dispatch_none {s : State} {b0 : Byte} {rest : List Byte} (hrun : s.status = .run)
    (hrem : s.remaining = b0 :: rest) (hnone : dispatch b0 = none) :
    step s = .next (s.raise .unrecognizedOpcode [b0] 0) := by
  rw [step_eq hrun (cursor_lt_of_remaining_eq_cons hrem), hrem, List.take_succ_cons,
    decode_of_dispatch_none hnone]
  rfl

/-- In RUN, a matched lead byte with fewer bytes left than its full length faults and records all of them: they
are fewer than six, so the window holds them all (R111). -/
theorem step_of_length_lt {s : State} {b0 : Byte} {rest : List Byte} {fam : Family}
    (hrun : s.status = .run) (hrem : s.remaining = b0 :: rest) (hfam : dispatch b0 = some fam)
    (hlen : (b0 :: rest).length < encodedLength fam b0 (byteAt rest 0)) :
    ∃ need, step s = .next (s.raise .truncatedInstruction (b0 :: rest) need) := by
  obtain ⟨need, hdec⟩ := decode_of_length_lt hfam hlen
  obtain ⟨-, hsix⟩ := encodedLength_bounds fam b0 (byteAt rest 0)
  have hall : (b0 :: rest).take 6 = b0 :: rest := List.take_of_length_le (by omega)
  refine ⟨need, ?_⟩
  rw [step_eq hrun (cursor_lt_of_remaining_eq_cons hrem), hrem, hall, hdec]
  rfl

/-! ### The obligations -/

/-- Settles O31: a lead byte with no pattern is refused by the decoder, and of the ways a step can fault only that
refusal records the code of UnrecognizedOpcode. -/
theorem unrecognizedOpcodeExactly : Obligations.UnrecognizedOpcodeExactly := by
  intro s b0 rest hrun hrem
  refine ⟨fun hnone => ⟨_, step_of_dispatch_none hrun hrem hnone, rfl, rfl, rfl, rfl⟩,
    fun t hstep hfault hcode => ?_⟩
  rcases step_next_faultCode hstep with ⟨hne, -⟩ | ⟨-, htrunc⟩ | ⟨-, win, b, hwin, hdec⟩
  · exact absurd hfault hne
  · exact absurd (hcode.symm.trans htrunc) (by decide)
  · rw [State.window_eq (cursor_lt_of_remaining_eq_cons hrem).le, hrem, List.take_succ_cons] at hwin
    obtain rfl := Option.some.inj hwin
    exact dispatch_eq_none_of_decode hdec

/-- Settles O32: both ways a family can lack bytes leave fewer than its full length, which is at most six. -/
theorem truncatedInstructionRaised : Obligations.TruncatedInstructionRaised := by
  intro s b0 rest fam hrun hrem hfam hshort
  have hlen : (b0 :: rest).length < encodedLength fam b0 (byteAt rest 0) := by
    rcases hshort with hmin | ⟨-, hfull⟩
    · exact hmin.trans_le (minLength_le_encodedLength fam b0 (byteAt rest 0))
    · exact hfull
  obtain ⟨need, hstep⟩ := step_of_length_lt hrun hrem hfam hlen
  obtain ⟨-, hsix⟩ := encodedLength_bounds fam b0 (byteAt rest 0)
  exact ⟨_, hstep, rfl, rfl, rfl, Nat.succ_pos _, Nat.le_of_lt_succ (hlen.trans_le hsix)⟩

/-- Settles O35: where a next state's fault code is not the old one it is that of one of the two raised kinds, and
neither is 3. -/
theorem invalidModeOrFieldNeverRaised : Obligations.InvalidModeOrFieldNeverRaised := by
  refine ⟨fun s t hstep hcode => ?_, fun i s t hexec hcode => ?_⟩
  · rcases step_next_faultCode hstep with ⟨hne, hkept⟩ | ⟨-, htrunc⟩ | ⟨hunrec, -⟩
    · exact ⟨hkept.symm.trans hcode, hne⟩
    · exact absurd (hcode.symm.trans htrunc) (by decide)
    · exact absurd (hcode.symm.trans hunrec) (by decide)
  · rcases exec_next_faultCode hexec with ⟨hne, hkept⟩ | ⟨-, htrunc⟩
    · exact ⟨hkept.symm.trans hcode, hne⟩
    · exact absurd (hcode.symm.trans htrunc) (by decide)

end Sys2Proof.Machine
end

section
/-! Decoding and encoding undo each other (30_encoding.md sections 2, 4 and 6). -/

namespace Sys2Proof

/-! ### Lead bytes -/

@[simp] theorem dispatch_leadIRM (w : BitVec 1) : dispatch (0b1100011#7 ++ w) = some .irm := by
  revert w; decide

@[simp] theorem widthLow_leadIRM (w : BitVec 1) :
    widthLow (0b1100011#7 ++ w) = widthOfBit (w == 1#1) := by
  revert w; decide

/-- Every lead byte of family RM is its pattern, d and w (R52). -/
theorem eq_leadRM_of_dispatch {b0 : Byte} (h : dispatch b0 = some .rm) :
    ∃ d w : BitVec 1, b0 = 0b100010#6 ++ d ++ w := by
  revert b0; decide

/-- Every lead byte of family IR is its pattern, w and reg (R53). -/
theorem eq_leadIR_of_dispatch {b0 : Byte} (h : dispatch b0 = some .ir) :
    ∃ (w : BitVec 1) (reg : Key), b0 = 0b1011#4 ++ w ++ reg := by
  revert b0; decide

/-- Every lead byte of family IRM is its pattern and w (R54). -/
theorem eq_leadIRM_of_dispatch {b0 : Byte} (h : dispatch b0 = some .irm) :
    ∃ w : BitVec 1, b0 = 0b1100011#7 ++ w := by
  revert b0; decide

/-- The width bit of family IR is bit 3 of the lead byte (R50, R68). -/
theorem immSize_widthIR (b0 : Byte) : immSize (widthIR b0) = 1 + b0.toNat / 8 % 2 := by
  revert b0; decide

/-! ### The encoder in the terms of the formats -/

theorem encode_length (i : Instr) : (encode i).length = i.length := by
  cases i with
  | movRm8R8 rm reg => exact (Laws.EncodeLength.movRm8R8 rm reg).1
  | movRm16R16 rm reg => exact (Laws.EncodeLength.movRm16R16 rm reg).1
  | movR8Rm8 reg rm => exact (Laws.EncodeLength.movR8Rm8 reg rm).1
  | movR16Rm16 reg rm => exact (Laws.EncodeLength.movR16Rm16 reg rm).1
  | movR8Imm8 reg imm => exact (Laws.EncodeLength.movR8Imm8 reg imm).1
  | movR16Imm16 reg imm => exact (Laws.EncodeLength.movR16Imm16 reg imm).1
  | movRm8Imm8 x rm imm => exact (Laws.EncodeLength.movRm8Imm8 x rm imm).1
  | movRm16Imm16 x rm imm => exact (Laws.EncodeLength.movRm16Imm16 x rm imm).1

theorem encode_rmRegInstr (d w : BitVec 1) (rm : Rm) (reg : Key) :
    encode (Machine.rmRegInstr d w rm reg) = (0b100010#6 ++ d ++ w) :: rm.bytes reg := by
  obtain rfl | rfl := BitVec.eq_zero_or_eq_one d <;> obtain rfl | rfl := BitVec.eq_zero_or_eq_one w <;>
    rfl

theorem encode_movR8Imm8 (reg : Key) (imm : Byte) :
    encode (.movR8Imm8 reg imm) = [0b1011#4 ++ 0#1 ++ reg, imm] := by
  have hlead : 0b10110#5 ++ reg = 0b1011#4 ++ 0#1 ++ reg := by revert reg; decide
  rw [encode, hlead]

theorem encode_movR16Imm16 (reg : Key) (imm : Word) :
    encode (.movR16Imm16 reg imm) = (0b1011#4 ++ 1#1 ++ reg) :: wordBytes imm := by
  have hlead : 0b10111#5 ++ reg = 0b1011#4 ++ 1#1 ++ reg := by revert reg; decide
  rw [encode, hlead]

/-! ### Decoding an encoding -/

/-- A well-formed operand is decoded from the fields and the extra bytes it is encoded by. -/
theorem decodeOperand_of_extraBytes {rm : Rm} (h : rm.wf = true) (b0 b1 : Byte) (tail : List Byte) :
    decodeOperand rm.mode rm.key (b0 :: b1 :: (rm.extraBytes ++ tail)) = rm := by
  cases rm with
  | reg k => rfl
  | direct a => simp [Rm.mode, Rm.key, Rm.extraBytes, decodeOperand, wordBytes, wordAt]
  | base k => exact decodeOperand_of_mode_00 rfl (bne_iff_ne.mp h) _
  | disp8 k d => rfl
  | disp16 k d => simp [Rm.mode, Rm.key, Rm.extraBytes, decodeOperand, wordBytes, wordAt]

theorem byteAt_append {xs ys : List Byte} {n k : Nat} (h : xs.length = n) :
    byteAt (xs ++ ys) (n + k) = byteAt ys k := by
  simp [byteAt, ← h, List.getD_eq_getElem?_getD, List.getElem?_append_right]

/-- A list decodes to the instruction its family reads from it, where it is as long as that instruction. -/
theorem decode_of_decodeFamily {b0 : Byte} {fam : Family} {rest : List Byte} {i : Instr}
    (h : dispatch b0 = some fam) (hi : decodeFamily fam (b0 :: rest) = i)
    (hlen : i.length ≤ (b0 :: rest).length) : decode (b0 :: rest) = .ok i := by
  refine decode_eq_ok.mpr ⟨fam, h, ?_, hi⟩
  rwa [← decodeFamily_length, hi]

theorem decode_encode_rmRegInstr (d w : BitVec 1) {rm : Rm} (h : rm.wf = true) (reg : Key)
    (rest : List Byte) :
    decode (encode (Machine.rmRegInstr d w rm reg) ++ rest) = .ok (Machine.rmRegInstr d w rm reg) := by
  have hlen := encode_length (Machine.rmRegInstr d w rm reg)
  rw [encode_rmRegInstr] at hlen ⊢
  refine decode_of_decodeFamily (dispatch_leadRM d w) ?_ (by simp [← hlen])
  refine (Machine.decodeRmReg_leadRM d w _ (rm.extraBytes ++ rest)).trans ?_
  simp only [modOf_modRegRm, regOf_modRegRm, rmOf_modRegRm, decodeOperand_of_extraBytes h]

/-- The width bit alone tells the two instructions of family IRM apart; the immediate follows the extra bytes
(R54). -/
theorem decodeImmRm_leadIRM (w : BitVec 1) (b1 : Byte) (rest : List Byte) :
    decodeImmRm ((0b1100011#7 ++ w) :: b1 :: rest) =
      if w = 0#1 then
        .movRm8Imm8 (regOf b1)
          (decodeOperand (modOf b1) (rmOf b1) ((0b1100011#7 ++ w) :: b1 :: rest))
          (byteAt rest (extra (modOf b1) (rmOf b1)))
      else
        .movRm16Imm16 (regOf b1)
          (decodeOperand (modOf b1) (rmOf b1) ((0b1100011#7 ++ w) :: b1 :: rest))
          (wordAt rest (extra (modOf b1) (rmOf b1))) := by
  simp only [decodeImmRm, byteAt_zero, byteAt_succ, widthLow_leadIRM]
  rw [Nat.add_comm 2]
  obtain rfl | rfl := BitVec.eq_zero_or_eq_one w <;> rfl

/-- Family IRM reads back a well-formed operand, the ignored field and the immediate. -/
theorem decodeImmRm_bytes (w : BitVec 1) {rm : Rm} (h : rm.wf = true) (x : Key) (imm : List Byte) :
    decodeImmRm ((0b1100011#7 ++ w) :: (rm.bytes x ++ imm)) =
      if w = 0#1 then .movRm8Imm8 x rm (byteAt imm 0) else .movRm16Imm16 x rm (wordAt imm 0) := by
  have himm (k : Nat) : byteAt (rm.extraBytes ++ imm) (rm.extra + k) = byteAt imm k :=
    byteAt_append (Rm.length_extraBytes rm)
  refine (decodeImmRm_leadIRM w _ (rm.extraBytes ++ imm)).trans ?_
  simp only [modOf_modRegRm, regOf_modRegRm, rmOf_modRegRm, decodeOperand_of_extraBytes h,
    Rm.extra_eq h, wordAt, himm 1]
  rw [← himm 0, Nat.add_zero]

/-- The decoder reads a well-formed instruction back from its bytes, whatever follows them. -/
theorem decode_encode {i : Instr} (h : i.wf = true) (rest : List Byte) :
    decode (encode i ++ rest) = .ok i := by
  have hlen : i.length ≤ (encode i ++ rest).length := by simp [encode_length]
  cases i with
  | movRm8R8 rm reg => exact decode_encode_rmRegInstr 0#1 0#1 h reg rest
  | movRm16R16 rm reg => exact decode_encode_rmRegInstr 0#1 1#1 h reg rest
  | movR8Rm8 reg rm => exact decode_encode_rmRegInstr 1#1 0#1 h reg rest
  | movR16Rm16 reg rm => exact decode_encode_rmRegInstr 1#1 1#1 h reg rest
  | movR8Imm8 reg imm =>
    rw [encode_movR8Imm8] at hlen ⊢
    exact decode_of_decodeFamily (dispatch_leadIR 0#1 reg) (Machine.decodeImmReg_leadIR 0#1 reg imm rest)
      hlen
  | movR16Imm16 reg imm =>
    rw [encode_movR16Imm16] at hlen ⊢
    refine decode_of_decodeFamily (dispatch_leadIR 1#1 reg) ?_ hlen
    refine (Machine.decodeImmReg_leadIR 1#1 reg (lowByte imm) (highByte imm :: rest)).trans ?_
    rw [if_neg (by decide), byteAt_zero, le16_lowByte_highByte]
  | movRm8Imm8 x rm imm =>
    rw [encode, List.cons_append, List.append_assoc] at hlen ⊢
    exact decode_of_decodeFamily (dispatch_leadIRM 0#1) (decodeImmRm_bytes 0#1 h x _) hlen
  | movRm16Imm16 x rm imm =>
    rw [encode, List.cons_append, List.append_assoc] at hlen ⊢
    refine decode_of_decodeFamily (dispatch_leadIRM 1#1) ((decodeImmRm_bytes 1#1 h x _).trans ?_) hlen
    rw [if_neg (by decide)]
    exact congrArg (Instr.movRm16Imm16 x rm) (le16_lowByte_highByte imm)

/-! ### Encoding what was decoded -/

theorem drop_eq_byteAt_cons {bs : List Byte} {k : Nat} (h : k < bs.length) :
    bs.drop k = byteAt bs k :: bs.drop (k + 1) := by
  rw [byteAt, List.getD_eq_getElem bs 0#8 h, List.drop_eq_getElem_cons h]

/-- One or two bytes read at an offset are the list's piece there. -/
theorem take_byteAt_eq {bs : List Byte} {k n : Nat} (hle : k + n ≤ bs.length) (htwo : n ≤ 2) :
    [byteAt bs k, byteAt bs (k + 1)].take n = (bs.drop k).take n := by
  match n with
  | 0 => rfl
  | 1 => rw [drop_eq_byteAt_cons (by omega)]; rfl
  | 2 => rw [drop_eq_byteAt_cons (by omega), drop_eq_byteAt_cons (by omega)]; rfl

/-- The operand a window gives is encoded by byte 1 and the extra bytes it was read from. -/
theorem bytes_decodeOperand (b0 b1 : Byte) {rest : List Byte}
    (h : extra (modOf b1) (rmOf b1) ≤ rest.length) :
    (decodeOperand (modOf b1) (rmOf b1) (b0 :: b1 :: rest)).bytes (regOf b1) =
      b1 :: rest.take (extra (modOf b1) (rmOf b1)) := by
  obtain ⟨hmode, hkey, hbytes⟩ := decodeOperand_spells (modOf b1) (rmOf b1) (b0 :: b1 :: rest)
  rw [Rm.bytes, hmode, hkey, hbytes, modRegRm_fields]
  exact congrArg (b1 :: ·) (take_byteAt_eq (k := 0) (by omega) (extra_le _ _))

/-- The bytes of the full length that a matched lead byte asks for are the encoding of what they decode to. -/
theorem encode_decodeFamily {b0 b1 : Byte} {fam : Family} {rest : List Byte}
    (h : dispatch b0 = some fam) (hlen : encodedLength fam b0 b1 ≤ (b0 :: b1 :: rest).length) :
    encode (decodeFamily fam (b0 :: b1 :: rest)) =
      (b0 :: b1 :: rest).take (encodedLength fam b0 b1) := by
  simp only [List.length_cons] at hlen
  cases fam with
  | rm =>
    obtain ⟨d, w, rfl⟩ := eq_leadRM_of_dispatch h
    simp only [encodedLength] at hlen ⊢
    rw [decodeFamily, Machine.decodeRmReg_leadRM, encode_rmRegInstr, bytes_decodeOperand _ _ (by omega)]
    simp [Nat.add_comm 2]
  | ir =>
    obtain ⟨w, reg, rfl⟩ := eq_leadIR_of_dispatch h
    rw [encodedLength_leadIR] at hlen ⊢
    rw [decodeFamily, Machine.decodeImmReg_leadIR]
    obtain rfl | rfl := BitVec.eq_zero_or_eq_one w
    · exact encode_movR8Imm8 reg b1
    · have himm : [byteAt rest 0] = rest.take 1 :=
        take_byteAt_eq (k := 0) (n := 1) (by simpa using hlen) (by omega)
      rw [if_neg (by decide), if_neg (by decide), encode_movR16Imm16, wordBytes_le16, himm]
      rfl
  | irm =>
    obtain ⟨w, rfl⟩ := eq_leadIRM_of_dispatch h
    simp only [encodedLength, widthLow_leadIRM] at hlen ⊢
    rw [decodeFamily, decodeImmRm_leadIRM]
    have hop := bytes_decodeOperand (0b1100011#7 ++ w) b1 (rest := rest) (by omega)
    generalize decodeOperand _ _ _ = op at hop ⊢
    generalize extra (modOf b1) (rmOf b1) = e at hop hlen ⊢
    have hsplit (n : Nat) : ((0b1100011#7 ++ w) :: b1 :: rest).take (2 + e + n) =
        (0b1100011#7 ++ w) :: ((b1 :: rest.take e) ++ (rest.drop e).take n) := by
      simp [Nat.add_comm 2, List.take_add]
    rw [hsplit, ← take_byteAt_eq (by omega) (immSize_bounds _).2, ← hop]
    obtain rfl | rfl := BitVec.eq_zero_or_eq_one w
    · rfl
    · rw [if_neg (by decide), wordAt, encode, wordBytes_le16]
      rfl

theorem decodeFamily_wf (fam : Family) (win : List Byte) : (decodeFamily fam win).wf = true := by
  have hop := decodeOperand_wf (modOf (byteAt win 1)) (rmOf (byteAt win 1)) win
  cases fam with
  | rm =>
    simp only [decodeFamily, decodeRmReg]
    cases dirBit (byteAt win 0) <;> cases widthLow (byteAt win 0) <;> exact hop
  | ir =>
    simp only [decodeFamily, decodeImmReg]
    cases widthIR (byteAt win 0) <;> rfl
  | irm =>
    simp only [decodeFamily, decodeImmRm]
    cases widthLow (byteAt win 0) <;> exact hop

end Sys2Proof

namespace Sys2Proof.Machine

/-- Settles O1: each family reads back its lead byte's fields, the operand and the immediate. -/
theorem decodeAgreesWithEncode : Obligations.DecodeAgreesWithEncode :=
  fun _ rest hwf => decode_encode hwf rest

/-- Settles O2: a family's operand and immediate spell the bytes they were read from. -/
theorem encodeAgreesWithDecode : Obligations.EncodeAgreesWithDecode := by
  intro bs i h
  have hlen := length_le_of_decode h
  obtain ⟨fam, hfam, hfull, rfl⟩ := decode_eq_ok.mp h
  refine ⟨decodeFamily_wf fam bs, hlen, ?_⟩
  obtain ⟨htwo, -⟩ := encodedLength_bounds fam (byteAt bs 0) (byteAt bs 1)
  match bs with
  | b0 :: b1 :: rest =>
    rw [decodeFamily_length]
    exact encode_decodeFamily hfam hfull
  | [_] => exact absurd (htwo.trans hfull) (Nat.not_succ_le_self 1)
  | [] => exact absurd (htwo.trans hfull) (Nat.not_succ_le_zero 1)

/-- Settles O5: the operand decoded from mod, rm and the extra bytes spells them again, so the bytes of the format
are the encoding of an instruction with that operand. -/
theorem formatIRMDecodes : Obligations.FormatIRMDecodes := by
  intro mod x rm lo hi i j rest
  obtain ⟨hmode, hkey, hbytes⟩ := decodeOperand_spells mod rm [0#8, 0#8, lo, hi]
  have hwf := decodeOperand_wf mod rm [0#8, 0#8, lo, hi]
  have hextra := decodeOperand_extra mod rm [0#8, 0#8, lo, hi]
  generalize decodeOperand mod rm [0#8, 0#8, lo, hi] = op at hmode hkey hbytes hwf hextra
  have hop : op.bytes x = (mod ++ x ++ rm) :: [lo, hi].take (extra mod rm) := by
    rw [Rm.bytes, hmode, hkey, hbytes]
    rfl
  refine ⟨op, hmode, hkey, hbytes, ?_, ?_, ?_, ?_⟩
  · have h := decode_encode (i := .movRm8Imm8 x op i) hwf rest
    simpa [encode, hop] using h
  · simp only [Instr.length, hextra]
    omega
  · have h := decode_encode (i := .movRm16Imm16 x op (le16 i j)) hwf rest
    simpa [encode, hop, wordBytes_le16] using h
  · simp only [Instr.length, hextra]
    omega

/-- Settles O10: an instruction is as long as its family's fields say, and the extra bytes are at most two. -/
theorem lengthFromFields : Obligations.LengthFromFields := by
  intro b0 rest i h
  obtain ⟨fam, hfam, -, rfl⟩ := decode_eq_ok.mp h
  have hlen := decodeFamily_length fam (b0 :: rest)
  have hextra := extra_le (modOf (byteAt rest 0)) (rmOf (byteAt rest 0))
  have himm := immSize_bounds (widthLow b0)
  refine ⟨fam, hfam, hlen, ?_, ?_, ?_⟩
  · rintro rfl
    simp only [hlen, encodedLength, byteAt_succ]
    omega
  · rintro rfl
    simp only [hlen, encodedLength, byteAt_zero, immSize_widthIR b0]
    omega
  · rintro rfl
    simp only [hlen, encodedLength, byteAt_zero, byteAt_succ]
    omega

end Sys2Proof.Machine
end

section
/-! The step as one function of the bytes from the cursor on, and as the spec's pseudocode
(40_decode_cycle.md section 1). -/

namespace Sys2Proof

/-! ### The decoder needs no more than six bytes -/

/-- A truncated instruction needs more bytes than there are, and never more than six (R70). -/
theorem length_lt_of_decode_truncated {bs : List Byte} {need : Nat}
    (h : decode bs = .error (.truncatedInstruction need)) :
    1 ≤ bs.length ∧ bs.length < need ∧ need ≤ 6 := by
  cases bs with
  | nil => cases h
  | cons b0 rest =>
    rcases decode_cons b0 rest with
      ⟨-, he⟩ | ⟨fam, -, ⟨hmin, he⟩ | ⟨-, hfull, he⟩ | ⟨-, he⟩⟩ <;> rw [he] at h <;> cases h
    · have := minLength_le fam b0
      exact ⟨Nat.succ_pos _, hmin, by omega⟩
    · exact ⟨Nat.succ_pos _, hfull, (encodedLength_bounds _ _ _).2⟩

/-- What the window holds decides what the bytes from the cursor on decode to (R83, R85). -/
theorem decode_take {n : Nat} (hn : 6 ≤ n) (bs : List Byte) : decode (bs.take n) = decode bs := by
  by_cases hle : bs.length ≤ n
  · rw [List.take_of_length_le hle]
  · obtain ⟨m, rfl⟩ : ∃ m, n = m + 1 := ⟨n - 1, by omega⟩
    cases bs with
    | nil => rfl
    | cons b0 rest =>
      rw [List.length_cons] at hle
      rw [List.take_succ_cons]
      cases hfam : dispatch b0 with
      | none => rw [decode_of_dispatch_none hfam, decode_of_dispatch_none hfam]
      | some fam =>
        have hsix (b1 : Byte) := (encodedLength_bounds fam b0 b1).2
        rw [decode_of_dispatch_some hfam ((hsix _).trans (by simp; omega)),
          decode_of_dispatch_some hfam ((hsix _).trans (by simp; omega))]
        exact congrArg Except.ok (decodeFamily_take (win := b0 :: rest) ((hsix _).trans hn))

end Sys2Proof

namespace Sys2Proof.Machine

/-! ### One decoding -/

/-- What a step in RUN does to the block when `bs` are the bytes from the cursor to the buffer's end. -/
def State.decodeStep (bs : List Byte) (s : State) : State :=
  match decode bs with
  | .ok i => (s.emit (recordOf i)).advance i.length
  | .error .noLeadByte => s.markDone
  | .error (.unrecognizedOpcode b0) => s.raise .unrecognizedOpcode [b0] 0
  | .error (.truncatedInstruction need) => s.raise .truncatedInstruction bs need

theorem decodeStep_of_ok {bs : List Byte} {i : Instr} (h : decode bs = .ok i) (s : State) :
    s.decodeStep bs = (s.emit (recordOf i)).advance i.length := by
  simp only [State.decodeStep, h]

theorem decodeStep_of_unrecognized {bs : List Byte} {b0 : Byte}
    (h : decode bs = .error (.unrecognizedOpcode b0)) (s : State) :
    s.decodeStep bs = s.raise .unrecognizedOpcode [b0] 0 := by
  simp only [State.decodeStep, h]

theorem decodeStep_of_truncated {bs : List Byte} {need : Nat}
    (h : decode bs = .error (.truncatedInstruction need)) (s : State) :
    s.decodeStep bs = s.raise .truncatedInstruction bs need := by
  simp only [State.decodeStep, h]

@[simp] theorem decodeStep_nil (s : State) : s.decodeStep [] = s.markDone := rfl

/-- Everything one decoding can do: the end of the run, a decoded instruction's effect, or one of the two faults. -/
theorem decodeStep_cases (bs : List Byte) (s : State) :
    (bs = [] ∧ s.decodeStep bs = s.markDone) ∨
      (∃ i, decode bs = .ok i ∧ s.decodeStep bs = (s.emit (recordOf i)).advance i.length) ∨
      (∃ b0 rest, bs = b0 :: rest ∧ dispatch b0 = none ∧
        s.decodeStep bs = s.raise .unrecognizedOpcode [b0] 0) ∨
      (∃ need, decode bs = .error (.truncatedInstruction need) ∧
        s.decodeStep bs = s.raise .truncatedInstruction bs need) := by
  cases bs with
  | nil => exact .inl ⟨rfl, rfl⟩
  | cons b0 rest =>
    rcases decode_cons b0 rest with ⟨hnone, he⟩ | ⟨fam, -, ⟨-, he⟩ | ⟨-, -, he⟩ | ⟨-, he⟩⟩
    · exact .inr (.inr (.inl ⟨b0, rest, rfl, hnone, decodeStep_of_unrecognized he s⟩))
    · exact .inr (.inr (.inr ⟨_, he, decodeStep_of_truncated he s⟩))
    · exact .inr (.inr (.inr ⟨_, he, decodeStep_of_truncated he s⟩))
    · exact .inr (.inl ⟨_, he, decodeStep_of_ok he s⟩)

/-- The window decides what a step does: where bytes are missing it holds all there are (R83). -/
theorem decodeStep_take (bs : List Byte) (s : State) : s.decodeStep (bs.take 6) = s.decodeStep bs := by
  cases hdec : decode bs with
  | ok i => rw [decodeStep_of_ok hdec, decodeStep_of_ok ((decode_take le_rfl bs).trans hdec)]
  | error e =>
    cases e with
    | noLeadByte => simp only [State.decodeStep, decode_take le_rfl, hdec]
    | unrecognizedOpcode b => simp only [State.decodeStep, decode_take le_rfl, hdec]
    | truncatedInstruction need =>
      obtain ⟨-, hshort, hsix⟩ := length_lt_of_decode_truncated hdec
      rw [List.take_of_length_le (by omega)]

theorem remaining_eq_nil {s : State} (h : s.cursor = s.buf.len) : s.remaining = [] :=
  List.eq_nil_of_length_eq_zero (by rw [State.length_remaining, h, Nat.sub_self])

/-- In RUN with the cursor in the buffer a step is one decoding of the bytes from the cursor on. -/
theorem step_eq_decodeStep {s : State} (hrun : s.status = .run) (hle : s.cursor ≤ s.buf.len) :
    step s = .next (s.decodeStep s.remaining) := by
  rcases hle.eq_or_lt with hend | hlt
  · rw [step_at_end hrun hend, remaining_eq_nil hend, decodeStep_nil]
  · rw [← decodeStep_take]
    rcases decodeStep_cases (s.remaining.take 6) s with
      ⟨hnil, -⟩ | ⟨i, hdec, he⟩ | ⟨b0, rest, hcons, hnone, he⟩ | ⟨need, hdec, he⟩
    · have := congrArg List.length hnil
      rw [List.length_take, State.length_remaining, List.length_nil] at this
      omega
    · rw [step_of_decode hrun hdec, he]
    · rw [step_eq hrun hlt, he, hcons, decode_of_dispatch_none hnone]
      rfl
    · rw [step_eq hrun hlt, he, hdec]
      rfl

/-- A step answers a next state exactly in RUN with the cursor in the buffer, and then it is one decoding. -/
theorem step_eq_next {s t : State} :
    step s = .next t ↔
      s.status = .run ∧ s.cursor ≤ s.buf.len ∧ t = s.decodeStep s.remaining := by
  constructor
  · intro h
    have hrun := (step_next_cases h).1
    have hle : s.cursor ≤ s.buf.len := by
      by_contra hout
      rw [step, whileRunning_run hrun, if_neg (by omega), State.window_eq_none (by omega)] at h
      cases h
    rw [step_eq_decodeStep hrun hle] at h
    exact ⟨hrun, hle, (Host.Outcome.next.inj h).symm⟩
  · rintro ⟨hrun, hle, rfl⟩
    exact step_eq_decodeStep hrun hle

/-! ### The spec's pseudocode (R61, R68, R82, R96, R103, R106) -/

theorem rmOperand_decodeOperand (m : ModeField) (k : Key) (w : Width) (win : List Byte) :
    rmOperand w (decodeOperand m k win) = resolveRM m k w win := by
  simp only [decodeOperand, resolveRM]
  split_ifs <;> rfl

/-- The record of the instruction a family reads is the one the spec's decode function gives. -/
theorem recordOf_decodeFamily (fam : Family) (win : List Byte) :
    recordOf (decodeFamily fam win) = refDecode fam win := by
  have hop (w : Width) := rmOperand_decodeOperand (modOf (byteAt win 1)) (rmOf (byteAt win 1)) w win
  have hextra := decodeOperand_extra (modOf (byteAt win 1)) (rmOf (byteAt win 1)) win
  cases fam with
  | rm =>
    simp only [decodeFamily, decodeRmReg, refDecode, refDecodeRM, ← hop, ← hextra]
    cases dirBit (byteAt win 0) <;> cases widthLow (byteAt win 0) <;> rfl
  | ir =>
    simp only [decodeFamily, decodeImmReg, refDecode, refDecodeIR]
    cases widthIR (byteAt win 0) <;> rfl
  | irm =>
    simp only [decodeFamily, decodeImmRm, refDecode, refDecodeIRM, ← hop, ← hextra, Nat.add_right_comm 2]
    cases widthLow (byteAt win 0) <;> rfl

/-- One decoding from a lead byte on is the window part of the spec's step. -/
theorem decodeStep_cons (b0 : Byte) (rest : List Byte) (s : State) :
    s.decodeStep (b0 :: rest) = refStepWindow (b0 :: rest) b0 s := by
  rcases decode_cons b0 rest with
    ⟨hnone, he⟩ | ⟨fam, hfam, ⟨hmin, he⟩ | ⟨hmin, hfull, he⟩ | ⟨hfull, he⟩⟩
  · simp only [decodeStep_of_unrecognized he, refStepWindow, hnone]
  · simp only [decodeStep_of_truncated he, refStepWindow, hfam, if_pos hmin]
  · simp only [decodeStep_of_truncated he, refStepWindow, hfam, if_neg (Nat.not_lt.mpr hmin), if_pos hfull]
  · have hmin := (minLength_le_encodedLength fam b0 _).trans hfull
    simp only [decodeStep_of_ok he, refStepWindow, hfam, if_neg (Nat.not_lt.mpr hmin),
      if_neg (Nat.not_lt.mpr hfull), recordOf_decodeFamily, decodeFamily_length]
    rfl

/-- Settles O15: at the buffer's end there is nothing to decode; below it the window holds a lead byte, and one
decoding of it is the pseudocode. -/
theorem stepFollowsDecodeCycle : Obligations.StepFollowsDecodeCycle := by
  intro s hrun
  refine ⟨step_at_end hrun, fun hlt => ?_⟩
  obtain ⟨b0, rest, hrem⟩ := List.exists_cons_of_length_pos (l := s.remaining)
    (by rw [State.length_remaining]; omega)
  refine ⟨b0, rest.take 5, ?_, ?_⟩
  · exact (State.window_eq hlt.le).trans (by rw [hrem, List.take_succ_cons])
  · rw [step_eq_decodeStep hrun hlt.le, hrem, ← decodeStep_take, List.take_succ_cons, decodeStep_cons]

end Sys2Proof.Machine
end

section
/-! What every step keeps, and how every run ends (10_state.md sections 3 to 5, 40_decode_cycle.md sections 3
and 4). -/

namespace Sys2Proof.Machine

/-! ### Records -/

theorem rmOperand_isPlace (w : Width) (rm : Rm) : (rmOperand w rm).IsPlace := by
  cases rm <;> exact trivial

theorem rmOperand_inRange (w : Width) (rm : Rm) : (rmOperand w rm).InRange := by
  cases rm with
  | reg k => exact trivial
  | direct a => exact Nat.le_of_lt_succ a.isLt
  | base k => exact ⟨by decide, by decide⟩
  | disp8 k d =>
    obtain ⟨hlo, hhi⟩ := s8_bounds d
    exact ⟨by omega, by omega⟩
  | disp16 k d => exact s16_bounds d

theorem immOperand8_inRange (imm : Byte) (tag : SizeTag) : (immOperand8 imm tag).InRange := by
  obtain ⟨hlo, hhi⟩ := s8_bounds imm
  cases tag <;> exact ⟨by omega, by omega⟩

/-- Every instruction decodes to a record the output may hold (R86). -/
theorem recordOf_ok (i : Instr) : (recordOf i).Ok := by
  obtain ⟨htwo, hsix⟩ := Instr.length_bounds i
  rw [← recordOf_length] at htwo hsix
  refine ⟨htwo, hsix, ?_⟩
  cases i with
  | movRm8R8 rm reg => exact ⟨rmOperand_isPlace _ rm, rmOperand_inRange _ rm, trivial⟩
  | movRm16R16 rm reg => exact ⟨rmOperand_isPlace _ rm, rmOperand_inRange _ rm, trivial⟩
  | movR8Rm8 reg rm => exact ⟨trivial, trivial, rmOperand_inRange _ rm⟩
  | movR16Rm16 reg rm => exact ⟨trivial, trivial, rmOperand_inRange _ rm⟩
  | movR8Imm8 reg imm => exact ⟨trivial, trivial, immOperand8_inRange imm _⟩
  | movR16Imm16 reg imm => exact ⟨trivial, trivial, s16_bounds imm⟩
  | movRm8Imm8 x rm imm =>
    exact ⟨rmOperand_isPlace _ rm, rmOperand_inRange _ rm, immOperand8_inRange imm _⟩
  | movRm16Imm16 x rm imm => exact ⟨rmOperand_isPlace _ rm, rmOperand_inRange _ rm, s16_bounds imm⟩

/-! ### The invariant along one step -/

theorem cursor_add_le_of_decode {s : State} {i : Instr} (h : decode s.remaining = .ok i) :
    s.cursor + i.length ≤ s.buf.len := by
  have hlen := length_le_of_decode h
  have htwo := (Instr.length_bounds i).1
  rw [State.length_remaining] at hlen
  omega

theorem inv_markDone {s : State} (h : s.Inv) (hrun : s.status = .run) (hend : s.cursor = s.buf.len) :
    s.markDone.Inv where
  buf_wf := h.buf_wf
  cursor_le := h.cursor_le
  output_ok := h.output_ok
  run_record := fun hs => nomatch hs
  done_end := fun _ => ⟨hend, h.run_record hrun⟩
  fault_record := fun hs => nomatch hs

theorem inv_emit_advance {s : State} (h : s.Inv) (hrun : s.status = .run) {r : Record} (hr : r.Ok)
    (hle : s.cursor + r.length ≤ s.buf.len) : ((s.emit r).advance r.length).Inv where
  buf_wf := h.buf_wf
  cursor_le := hle
  output_ok := by
    obtain ⟨rs, hout, hok, hsum⟩ := h.output_ok
    refine ⟨rs ++ [r], by simp [hout], fun x hx => ?_, by simp [hsum]⟩
    rcases List.mem_append.mp hx with hx | hx
    · exact hok x hx
    · exact List.mem_singleton.mp hx ▸ hr
  run_record := fun _ => h.run_record hrun
  done_end := fun hs => nomatch hrun.symm.trans hs
  fault_record := fun hs => nomatch hrun.symm.trans hs

theorem inv_raise {s : State} (h : s.Inv) {kind : FaultKind} {bytes : List Byte} {need : Nat}
    (hok : (s.raise kind bytes need).FaultOk) : (s.raise kind bytes need).Inv where
  buf_wf := h.buf_wf
  cursor_le := h.cursor_le
  output_ok := h.output_ok
  run_record := fun hs => nomatch hs
  done_end := fun hs => nomatch hs
  fault_record := fun _ => hok

/-- Settles O47: of the four things a decoding can do, the end of the run puts the cursor at L, a decoded
instruction appends a record in range and stays in the buffer, and a fault records the bytes that gave it. -/
theorem stepKeepsInvariant : Obligations.StepKeepsInvariant := by
  intro s t hinv h
  obtain ⟨hrun, hle, rfl⟩ := step_eq_next.mp h
  rcases decodeStep_cases s.remaining s with
    ⟨hnil, he⟩ | ⟨i, hdec, he⟩ | ⟨b0, rest, hcons, hnone, he⟩ | ⟨need, hdec, he⟩ <;> rw [he]
  · have hlen := State.length_remaining s
    rw [hnil, List.length_nil] at hlen
    exact inv_markDone hinv hrun (by omega)
  · have hadv := cursor_add_le_of_decode hdec
    rw [← recordOf_length] at hadv ⊢
    exact inv_emit_advance hinv hrun (recordOf_ok i) hadv
  · exact inv_raise hinv ⟨rfl, .inl ⟨rfl, rfl, b0, rest, hcons, rfl, hnone⟩⟩
  · obtain ⟨hone, hshort, hsix⟩ := length_lt_of_decode_truncated hdec
    exact inv_raise hinv ⟨rfl, .inr ⟨rfl, rfl, hone, hshort, hsix⟩⟩

/-! ### A run ends -/

/-- A step decodes an instruction and stays in RUN, or it ends the run and keeps cursor and output. -/
theorem step_next_effects {s t : State} (h : step s = .next t) :
    (∃ i, decode s.remaining = .ok i ∧ t.status = .run ∧
        t = (s.emit (recordOf i)).advance i.length) ∨
      (t.status ≠ .run ∧ t.cursor = s.cursor ∧ t.output = s.output) := by
  obtain ⟨hrun, -, rfl⟩ := step_eq_next.mp h
  rcases decodeStep_cases s.remaining s with
    ⟨-, he⟩ | ⟨i, hdec, he⟩ | ⟨_, _, -, -, he⟩ | ⟨_, -, he⟩ <;> rw [he]
  · exact .inr ⟨by simp, rfl, rfl⟩
  · exact .inl ⟨i, hdec, hrun, rfl⟩
  · exact .inr ⟨by simp, rfl, rfl⟩
  · exact .inr ⟨by simp, rfl, rfl⟩

/-- Settles O48, by induction on the bytes left: a step ends the run or takes at least two of them. -/
theorem runEndsWithinBound : Obligations.RunEndsWithinBound := by
  intro s hrun hle
  induction hn : s.buf.len - s.cursor using Nat.strong_induction_on generalizing s with
  | _ n ih =>
    have hstep := step_eq_decodeStep hrun hle
    rcases step_next_effects hstep with ⟨i, hdec, hrun', ht⟩ | ⟨hend, -⟩
    · have htwo := (Instr.length_bounds i).1
      have hadv := cursor_add_le_of_decode hdec
      rw [ht] at hstep hrun'
      obtain ⟨k, u, hk, hu, hdone⟩ := ih (n - i.length) (by omega) _ hrun' (by simpa using hadv)
        (by simp; omega)
      exact ⟨k + 1, u, by omega, runSteps_succ_eq_next.mpr ⟨_, hstep, hu⟩, hdone⟩
    · exact ⟨1, _, Nat.le_add_left _ _, runSteps_succ_eq_next.mpr ⟨_, hstep, rfl⟩, hend⟩

/-! ### Encodings laid end to end -/

@[simp] theorem remaining_emit_advance (r : Record) (n : Nat) (s : State) :
    ((s.emit r).advance n).remaining = s.remaining.drop n := by
  simp [State.remaining, Nat.add_comm]

theorem cursor_eq_of_remaining_nil {s : State} (hle : s.cursor ≤ s.buf.len) (h : s.remaining = []) :
    s.cursor = s.buf.len := by
  have := congrArg List.length h
  rw [State.length_remaining, List.length_nil] at this
  omega

/-- From a state whose remaining bytes are encodings laid end to end, one step an instruction and one more end the
run DONE, with the records of the instructions appended in order. -/
theorem run_of_remaining_encodings {is : List Instr} (hwf : ∀ i ∈ is, i.wf = true) {u : State}
    (hrun : u.status = .run) (hle : u.cursor ≤ u.buf.len) (hrem : u.remaining = is.flatMap encode) :
    ∃ t, runSteps (is.length + 1) u = .next t ∧ t.status = .done ∧ t.cursor = t.buf.len ∧
      t.output = u.output ++ is.map fun i => .instr (recordOf i) := by
  induction is generalizing u with
  | nil =>
    have hend := cursor_eq_of_remaining_nil hle hrem
    exact ⟨u.markDone, runSteps_succ_eq_next.mpr ⟨_, step_at_end hrun hend, rfl⟩, rfl, hend, by simp⟩
  | cons i is ih =>
    obtain ⟨hi, his⟩ := List.forall_mem_cons.mp hwf
    rw [List.flatMap_cons] at hrem
    have hdec : decode u.remaining = .ok i := hrem ▸ decode_encode hi _
    have hstep := step_eq_decodeStep hrun hle
    rw [decodeStep_of_ok hdec] at hstep
    obtain ⟨t, ht, hdone, hend, hout⟩ := ih his (u := (u.emit (recordOf i)).advance i.length) hrun
      (cursor_add_le_of_decode hdec) (by rw [remaining_emit_advance, hrem, List.drop_left' (encode_length i)])
    exact ⟨t, runSteps_succ_eq_next.mpr ⟨_, hstep, ht⟩, hdone, hend, by simp [hout]⟩

theorem remaining_start (bs : List Byte) : (State.start bs).remaining = bs := by
  simp [State.remaining]

/-- Settles O49: every boot gives the start over the encodings, in RUN with the header alone. -/
theorem supportedBufferEndsDone : Obligations.SupportedBufferEndsDone := by
  intro is s u hwf hboot
  obtain ⟨-, rfl⟩ := State.boot_eq_some.mp hboot
  exact run_of_remaining_encodings hwf rfl (Nat.zero_le _) (remaining_start _)

/-! ### The result of a run -/

theorem disassemble_of_ok {bs : List Byte} {i : Instr} (h : decode bs = .ok i) (fuel offset : Nat) :
    disassemble (fuel + 1) offset bs =
      (recordOf i :: (disassemble fuel (offset + i.length) (bs.drop i.length)).1,
        (disassemble fuel (offset + i.length) (bs.drop i.length)).2) := by
  cases bs with
  | nil => cases h
  | cons b0 rest =>
    obtain ⟨fam, hfam, hlen, rfl⟩ := decode_eq_ok.mp h
    have hmin := (minLength_le_encodedLength fam b0 _).trans hlen
    rw [byteAt_zero] at hfam hlen
    simp only [disassemble, hfam, if_neg (Nat.not_lt.mpr hmin), if_neg (Nat.not_lt.mpr hlen),
      recordOf_decodeFamily, decodeFamily_length, byteAt_zero]

theorem disassemble_of_dispatch_none {b0 : Byte} (h : dispatch b0 = none) (rest : List Byte)
    (fuel offset : Nat) :
    disassemble (fuel + 1) offset (b0 :: rest) = ([], .unrecognizedOpcode offset b0) := by
  simp only [disassemble, h]

theorem disassemble_of_truncated {bs : List Byte} {need : Nat}
    (h : decode bs = .error (.truncatedInstruction need)) (fuel offset : Nat) :
    disassemble (fuel + 1) offset bs = ([], .truncatedInstruction offset bs need) := by
  cases bs with
  | nil => cases h
  | cons b0 rest =>
    rcases decode_cons b0 rest with
      ⟨-, he⟩ | ⟨fam, hfam, ⟨hmin, he⟩ | ⟨hmin, hfull, he⟩ | ⟨-, he⟩⟩ <;> rw [he] at h <;> cases h
    · simp only [disassemble, hfam, if_pos hmin]
    · simp only [disassemble, hfam, if_neg (Nat.not_lt.mpr hmin), if_pos hfull]

/-- What the host reads after a run that ended so over a buffer of `len` bytes (R94). -/
def RunEnd.result (len : Nat) (out : List Item) : RunEnd → RunResult
  | .done => ⟨.done, out, noFaultRecord, len⟩
  | .unrecognizedOpcode off b0 =>
    ⟨.fault, out, ⟨FaultKind.unrecognizedOpcode.code, off, [b0], 0⟩, off⟩
  | .truncatedInstruction off bs need =>
    ⟨.fault, out, ⟨FaultKind.truncatedInstruction.code, off, bs, need⟩, off⟩
  | .notEnded => ⟨.run, out, noFaultRecord, 0⟩

theorem resultOf_eq (bs : List Byte) :
    resultOf bs = (disassemble (bs.length + 1) 0 bs).2.result bs.length
      (.header :: (disassemble (bs.length + 1) 0 bs).1.map .instr) := by
  simp only [resultOf]
  cases (disassemble (bs.length + 1) 0 bs).2 <;> rfl

/-- A run in RUN with no fault recorded ends as disassembling the bytes from the cursor on says, whatever fuel
beyond their number it is given. -/
theorem run_of_disassemble {fuel : Nat} {s : State} (hrun : s.status = .run)
    (hle : s.cursor ≤ s.buf.len) (hrec : s.faultRecord = noFaultRecord)
    (hfuel : s.remaining.length < fuel) :
    ∃ k t, runSteps k s = .next t ∧ t.status ≠ .run ∧
      t.result = (disassemble fuel s.cursor s.remaining).2.result s.buf.len
        (s.output ++ (disassemble fuel s.cursor s.remaining).1.map .instr) := by
  induction fuel generalizing s with
  | zero => omega
  | succ fuel ih =>
    have hstep := step_eq_decodeStep hrun hle
    have hone {t : State} (h : step s = .next t) : runSteps 1 s = .next t :=
      runSteps_succ_eq_next.mpr ⟨t, h, rfl⟩
    rcases decodeStep_cases s.remaining s with
      ⟨hnil, he⟩ | ⟨i, hdec, he⟩ | ⟨b0, rest, hcons, hnone, he⟩ | ⟨need, hdec, he⟩ <;> rw [he] at hstep
    · refine ⟨1, _, hone hstep, by simp, ?_⟩
      have hrec' : s.markDone.faultRecord = noFaultRecord := hrec
      rw [hnil]
      simp [disassemble, RunEnd.result, State.result, hrec', ← cursor_eq_of_remaining_nil hle hnil]
    · have htwo := (Instr.length_bounds i).1
      have hlen := length_le_of_decode hdec
      obtain ⟨k, t, ht, hend, hres⟩ := ih (s := (s.emit (recordOf i)).advance i.length) hrun
        (cursor_add_le_of_decode hdec) hrec (by rw [remaining_emit_advance, List.length_drop]; omega)
      refine ⟨k + 1, t, runSteps_succ_eq_next.mpr ⟨_, hstep, ht⟩, hend, ?_⟩
      rw [hres, disassemble_of_ok hdec]
      simp
    · refine ⟨1, _, hone hstep, by simp, ?_⟩
      rw [hcons, disassemble_of_dispatch_none hnone]
      simp [RunEnd.result, State.result, State.faultRecord]
    · refine ⟨1, _, hone hstep, by simp, ?_⟩
      rw [disassemble_of_truncated hdec]
      simp [RunEnd.result, State.result, State.faultRecord]

/-- Settles O50: every boot gives the start over the bytes, and its run ends as disassembling all of them says. -/
theorem runIsFunctionOfBytes : Obligations.RunIsFunctionOfBytes := by
  intro bs s u hboot
  obtain ⟨-, rfl⟩ := State.boot_eq_some.mp hboot
  rw [resultOf_eq]
  simpa [remaining_start] using run_of_disassemble (fuel := bs.length + 1) (State.start_status bs)
    (Nat.zero_le _) (State.start_faultRecord bs) (by rw [remaining_start]; omega)

end Sys2Proof.Machine
end

section
/-! Single steps: what they run, what they write and what they read (40_decode_cycle.md sections 1 to 4,
60_exceptions.md sections 2 and 3). -/

namespace Sys2Proof.Machine

/-! ### The instruction a step runs -/

/-- Settles O13: a step in RUN below the buffer's end is the window's decoding, and this one is `i`. -/
theorem stepRunsDecodedInstruction : Obligations.StepRunsDecodedInstruction := by
  intro s win i hrun hlt hwin hdec
  obtain rfl := Option.some.inj ((State.window_eq hlt.le).symm.trans hwin)
  rw [step_eq hrun hlt, hdec]

/-- Settles O14: the bytes from the cursor on decode to the instruction they begin with the encoding of. -/
theorem stepRunsInstructionInBuffer : Obligations.StepRunsInstructionInBuffer := by
  intro s i rest hrun hwf hrem
  have hlt : s.cursor < s.buf.len := by
    have hlen := congrArg List.length hrem
    have htwo := (Instr.length_bounds i).1
    rw [State.length_remaining, List.length_append, encode_length] at hlen
    omega
  rw [step_eq hrun hlt, decode_take le_rfl, hrem, decode_encode hwf]

/-- Settles O36: both `step` and every meaning are guarded by STATUS. -/
theorem noStepAfterTheEnd : Obligations.NoStepAfterTheEnd := by
  refine fun s => ⟨fun hs => ⟨?_, fun i => ?_⟩, fun hs => ⟨?_, fun i => ?_⟩⟩
  · simp only [step, whileRunning, hs]
  · simp only [exec_eq_retire, retire, whileRunning, hs]
  · simp only [step, whileRunning, hs]
  · simp only [exec_eq_retire, retire, whileRunning, hs]

/-! ### What a step writes -/

/-- Settles O33: a fault is the dispatcher's miss or one of the two presence checks, and family IR has only the
first of these, since it asks for the full length. -/
theorem faultNeedAndPriority : Obligations.FaultNeedAndPriority := by
  intro s t b0 rest hrun hrem hstep hfault
  obtain ⟨-, -, rfl⟩ := step_eq_next.mp hstep
  rw [hrem] at hfault ⊢
  rcases decode_cons b0 rest with
    ⟨hnone, he⟩ | ⟨fam, hfam, ⟨hmin, he⟩ | ⟨hmin, hfull, he⟩ | ⟨-, he⟩⟩
  · rw [decodeStep_of_unrecognized he]
    exact .inl ⟨hnone, rfl, rfl⟩
  · rw [decodeStep_of_truncated he]
    exact .inr ⟨fam, hfam, rfl, .inl ⟨hmin, rfl⟩⟩
  · have hir : fam ≠ .ir := by
      rintro rfl
      exact absurd hfull (Nat.not_lt.mpr hmin)
    rw [decodeStep_of_truncated he]
    exact .inr ⟨fam, hfam, rfl, .inr ⟨hmin, hir, hfull, rfl⟩⟩
  · rw [decodeStep_of_ok he] at hfault
    exact nomatch hrun.symm.trans hfault

/-- Settles O34: the only steps that answer FAULT are `raise`. -/
theorem faultsArePrecise : Obligations.FaultsArePrecise := by
  intro s t hstep hfault
  obtain ⟨hrun, -, rfl⟩ := step_eq_next.mp hstep
  rcases decodeStep_cases s.remaining s with
    ⟨-, he⟩ | ⟨i, -, he⟩ | ⟨_, _, -, -, he⟩ | ⟨_, -, he⟩ <;> rw [he] at hfault ⊢
  · exact nomatch hfault
  · exact nomatch hrun.symm.trans hfault
  · rfl
  · rfl

/-- Settles O38: a step that stays in RUN decoded an instruction, and its record carries its length. -/
theorem cursorWrittenOnlyByAdvance : Obligations.CursorWrittenOnlyByAdvance := by
  refine ⟨fun s t hstep hrun => ?_, fun s t hstep hend => ?_, fun s => ⟨rfl, rfl⟩⟩
  · rcases step_next_effects hstep with ⟨i, -, -, rfl⟩ | ⟨hend, -⟩
    · exact ⟨recordOf i, rfl, by simp, by simpa using Instr.length_bounds i⟩
    · exact absurd hrun hend
  · rcases step_next_effects hstep with ⟨_, -, hrun, -⟩ | ⟨-, hkept⟩
    · exact absurd hrun hend
    · exact hkept

/-- Settles O39, by induction on the steps: each appends one record or none. -/
theorem outputAppendOnly : Obligations.OutputAppendOnly := by
  intro k s t h
  induction k generalizing s with
  | zero =>
    obtain rfl : s = t := by simpa using h
    exact ⟨[], by simp, le_rfl⟩
  | succ k ih =>
    obtain ⟨u, hu, ht⟩ := runSteps_succ_eq_next.mp h
    obtain ⟨rs, hout, hlen⟩ := ih u ht
    rcases step_next_effects hu with ⟨i, -, -, rfl⟩ | ⟨-, -, hkept⟩
    · exact ⟨recordOf i :: rs, by simp [hout], Nat.succ_le_succ hlen⟩
    · exact ⟨rs, by rw [hout, hkept], hlen.trans (Nat.le_succ k)⟩

theorem step_cursor_le {s t : State} (h : step s = .next t) : s.cursor ≤ t.cursor := by
  rcases step_next_effects h with ⟨i, -, -, rfl⟩ | ⟨-, hkept, -⟩
  · exact Nat.le_add_right _ _
  · exact hkept.ge

/-- Under the invariant FAULT_OFFSET is 0 or the cursor, so it lies in the buffer as well. -/
theorem faultOffset_le_of_inv {s : State} (h : s.Inv) : s.faultOffset ≤ s.buf.len := by
  have hzero (hrec : s.faultRecord = noFaultRecord) : s.faultOffset ≤ s.buf.len :=
    (congrArg FaultRecord.offset hrec).trans_le (Nat.zero_le _)
  cases hs : s.status with
  | run => exact hzero (h.run_record hs)
  | done => exact hzero (h.done_end hs).2
  | fault => exact (h.fault_record hs).1.trans_le h.cursor_le

/-- Settles O51: the invariant keeps both offsets at most L, which the register's width fits. -/
theorem cursorFitsItsRegister : Obligations.CursorFitsItsRegister := by
  intro bits s t hfits hinv hstep
  have hinv' := stepKeepsInvariant s t hinv hstep
  have hbuf := step_next_buf hstep
  have hexact {n : Nat} (hn : n ≤ s.buf.len) : (BitVec.ofNat bits n).toNat = n := by
    rw [BitVec.toNat_ofNat, Nat.mod_eq_of_lt (hn.trans_lt hfits)]
  have hcursor : (t.cursorRegister bits).toNat = t.cursor := hexact (hbuf ▸ hinv'.cursor_le)
  refine ⟨hcursor, hexact (hbuf ▸ faultOffset_le_of_inv hinv'), ?_⟩
  rw [hcursor]
  exact (hexact hinv.cursor_le).trans_le (step_cursor_le hstep)

/-! ### What a step reads -/

theorem State.result_eq_iff {s t : State} : s.result = t.result ↔
    s.status = t.status ∧ s.output = t.output ∧ s.faultRecord = t.faultRecord ∧
      s.cursor = t.cursor := by
  simp only [State.result, RunResult.mk.injEq]

theorem decodeStep_buf (bs : List Byte) (s : State) : (s.decodeStep bs).buf = s.buf := by
  rcases decodeStep_cases bs s with
    ⟨-, he⟩ | ⟨_, -, he⟩ | ⟨_, _, -, -, he⟩ | ⟨_, -, he⟩ <;> rw [he] <;> rfl

/-- What one decoding makes of what the host reads does not depend on the buffer. -/
theorem decodeStep_result_congr {s t : State} (h : s.result = t.result) (bs : List Byte) :
    (s.decodeStep bs).result = (t.decodeStep bs).result := by
  obtain ⟨hstatus, hout, hrec, hcursor⟩ := State.result_eq_iff.mp h
  simp only [State.faultRecord, FaultRecord.mk.injEq] at hrec
  obtain ⟨hcode, hoff, hbytes, hneed⟩ := hrec
  unfold State.decodeStep
  cases decode bs with
  | ok i => simp [State.result, State.faultRecord, hstatus, hout, hcursor, hcode, hoff, hbytes, hneed]
  | error e =>
    cases e <;> simp [State.result, State.faultRecord, hout, hcursor, hcode, hoff, hbytes, hneed]

/-- Settles O41: a step is the decoding of the window, and there is a window exactly where the cursor is in the
buffer. -/
theorem stepReadsOnlyTheWindow : Obligations.StepReadsOnlyTheWindow := by
  intro s t s' hres hwin _ hstep
  obtain ⟨hrun, hle, rfl⟩ := step_eq_next.mp hstep
  obtain ⟨hstatus, -⟩ := State.result_eq_iff.mp hres
  have hle' : t.cursor ≤ t.buf.len := by
    by_contra hout
    rw [State.window_eq hle, State.window_eq_none (by omega)] at hwin
    cases hwin
  have htake : s.remaining.take 6 = t.remaining.take 6 := by
    rw [State.window_eq hle, State.window_eq hle'] at hwin
    exact Option.some.inj hwin
  refine ⟨_, step_eq_decodeStep (hstatus ▸ hrun) hle', ?_, decodeStep_buf _ t⟩
  rw [← decodeStep_take, ← decodeStep_take s.remaining, htake]
  exact (decodeStep_result_congr hres _).symm

/-- Family IRM's record takes nothing of byte 1 but mod and rm (R73, R106). -/
theorem refDecodeIRM_congr {b1 c1 : Byte} (hmod : modOf b1 = modOf c1) (hrm : rmOf b1 = rmOf c1)
    (b0 : Byte) (rest : List Byte) :
    refDecodeIRM (b0 :: b1 :: rest) = refDecodeIRM (b0 :: c1 :: rest) := by
  simp only [refDecodeIRM, byteAt_zero, byteAt_succ, Nat.add_comm 2, hmod, hrm]
  rfl

theorem decode_irm_of_length_lt {b0 b1 : Byte} {rest : List Byte} (hfam : dispatch b0 = some .irm)
    (hlen : (b0 :: b1 :: rest).length < encodedLength .irm b0 b1) :
    decode (b0 :: b1 :: rest) = .error (.truncatedInstruction (encodedLength .irm b0 b1)) := by
  have hmin : ¬(b0 :: b1 :: rest).length < minLength .irm b0 := Nat.not_lt.mpr (Nat.le_add_left 2 _)
  simp only [decode, hfam, if_neg hmin]
  exact if_pos hlen

/-- Two lists that differ only in `b1[5:3]` of family IRM lack the same bytes, or decode to one record (R73). -/
theorem decode_irm_congr {b0 b1 c1 : Byte} (hfam : dispatch b0 = some .irm) (hmod : modOf b1 = modOf c1)
    (hrm : rmOf b1 = rmOf c1) (rest : List Byte) :
    (∃ need, decode (b0 :: b1 :: rest) = .error (.truncatedInstruction need) ∧
        decode (b0 :: c1 :: rest) = .error (.truncatedInstruction need)) ∨
      ∃ i j, decode (b0 :: b1 :: rest) = .ok i ∧ decode (b0 :: c1 :: rest) = .ok j ∧
        recordOf i = recordOf j := by
  have hlen : encodedLength .irm b0 b1 = encodedLength .irm b0 c1 := by
    simp only [encodedLength, hmod, hrm]
  rcases Nat.lt_or_ge (b0 :: b1 :: rest).length (encodedLength .irm b0 b1) with hshort | hfull
  · refine .inl ⟨_, decode_irm_of_length_lt hfam hshort, ?_⟩
    rw [hlen]
    exact decode_irm_of_length_lt hfam (hlen ▸ hshort)
  · refine .inr ⟨_, _, decode_of_dispatch_some hfam hfull, decode_of_dispatch_some hfam (hlen ▸ hfull), ?_⟩
    rw [recordOf_decodeFamily, recordOf_decodeFamily]
    exact refDecodeIRM_congr hmod hrm b0 rest

/-- Settles O42: both blocks raise the same fault, or complete the same record. -/
theorem ignoredFieldNotRead : Obligations.IgnoredFieldNotRead := by
  intro s t s' b0 b1 c1 rest hb0 hs ht hmod hrm hres hstep
  obtain ⟨hrun, -, rfl⟩ := step_eq_next.mp hstep
  obtain ⟨hstatus, hout, hrec, hcursor⟩ := State.result_eq_iff.mp hres
  have hneed : s.faultNeed = t.faultNeed := congrArg FaultRecord.need hrec
  have hfam : dispatch b0 = some .irm := by rcases hb0 with rfl | rfl <;> decide
  refine ⟨_, step_eq_decodeStep (hstatus ▸ hrun) (cursor_lt_of_remaining_eq_cons ht).le, ?_⟩
  rw [hs, ht]
  rcases decode_irm_congr hfam hmod hrm rest with ⟨need, hdec, hdec'⟩ | ⟨i, j, hdec, hdec', hij⟩
  · rw [decodeStep_of_truncated hdec, decodeStep_of_truncated hdec']
    exact ⟨hout.symm, hcursor.symm, rfl, rfl⟩
  · rw [decodeStep_of_ok hdec, decodeStep_of_ok hdec', ← recordOf_length, ← recordOf_length, hij]
    exact ⟨by simp [hout], by simp [hcursor], hstatus.symm, hneed.symm⟩

/-! ### The text along a run -/

theorem text_append (xs ys : List Item) : text (xs ++ ys) = text xs ++ text ys :=
  List.flatMap_append

/-- Settles O56: under the invariant the output is the header and then records, whose items are no header. -/
theorem headerExactlyOnceAndFirst : Obligations.HeaderExactlyOnceAndFirst := by
  intro s hinv
  obtain ⟨rs, hout, -, -⟩ := hinv.output_ok
  have hnone : (rs.map Item.instr).count .header = 0 :=
    List.count_eq_zero.mpr (by simp)
  rw [hout]
  exact ⟨⟨text (rs.map .instr), rfl⟩, by rw [List.count_cons_self, hnone], rfl⟩

/-- Settles O57: the text of an output with one record more is the text before and that record's line. -/
theorem eachDecodeStepAddsOneLine : Obligations.EachDecodeStepAddsOneLine := by
  intro s t hstep
  rcases step_next_effects hstep with ⟨i, -, hrun, rfl⟩ | ⟨hend, -, hkept⟩
  · refine ⟨fun _ => ⟨recordOf i, rfl, ?_⟩, fun hend => absurd hrun hend⟩
    show text (s.output ++ [.instr (recordOf i)]) = _
    rw [text_append]
    cases i <;> simp [text, renderItem, renderLine, lineEnd, mnemonicText]
  · exact ⟨fun hrun => absurd hrun hend, fun _ => by rw [hkept]⟩

end Sys2Proof.Machine
end

section
/-! The eight instructions: their results, their frame and their relations (41_mov_rm_reg.md to 43_mov_imm_rm.md,
section 2 of each). -/

namespace Sys2Proof.Machine

/-! ### A meaning on its own -/

/-- Where its bytes are there, a meaning emits the record and advances by its length. -/
theorem exec_completes {i : Instr} {s : State} (hrun : s.status = .run)
    (hroom : s.cursor + i.length ≤ s.buf.len) :
    exec i s = .next ((s.emit (recordOf i)).advance i.length) := by
  obtain ⟨-, hsix⟩ := Instr.length_bounds i
  have hwin : i.length ≤ (s.remaining.take 6).length := by
    rw [List.length_take, State.length_remaining]
    omega
  rw [exec_eq_retire, ← recordOf_length i]
  exact retire_completes hrun (State.window_eq (by omega)) ((firstCheck_le i).trans hwin)
    (by rwa [recordOf_length])

/-- Where bytes are missing, a meaning raises TruncatedInstruction, and the need is the length that the failing
check asks for (R84, R115). -/
theorem exec_truncated {i : Instr} {s : State} (hrun : s.status = .run) (hle : s.cursor ≤ s.buf.len)
    (hshort : s.buf.len < s.cursor + i.length) :
    ∃ win need, exec i s = .next (s.raise .truncatedInstruction win need) ∧
      (need = firstCheck i ∨ need = i.length) := by
  have hwin : (s.remaining.take 6).length < i.length := by
    rw [List.length_take, State.length_remaining]
    omega
  rw [exec_eq_retire, retire, whileRunning_run hrun, State.window_eq hle, recordOf_length]
  by_cases hmin : (s.remaining.take 6).length < firstCheck i
  · exact ⟨_, _, if_pos hmin, .inl rfl⟩
  · exact ⟨_, _, (if_neg hmin).trans (if_pos hwin), .inr rfl⟩

/-- What an instruction of length `n` and record `r` does in RUN: the shape of the result statements. -/
theorem exec_result {i : Instr} {s : State} {n : Nat} {r : Record} (hlen : i.length = n)
    (hrec : recordOf i = r) (hrun : s.status = .run) (hle : s.cursor ≤ s.buf.len) :
    (encode i).length = n ∧
      (s.cursor + n ≤ s.buf.len → exec i s = .next { s with
        output := s.output ++ [.instr r]
        cursor := s.cursor + n }) ∧
      (s.buf.len < s.cursor + n → RaisesTruncated s (exec i s)) := by
  subst hlen hrec
  refine ⟨encode_length i, exec_completes hrun, fun hshort => ?_⟩
  obtain ⟨win, need, hexec, -⟩ := exec_truncated hrun hle hshort
  exact ⟨win, need, hexec⟩

/-! ### Operands and immediates in an encoding -/

/-- The spec's resolver reads a well-formed operand back from the bytes it is encoded by (R61). -/
theorem resolveRM_bytes {rm : Rm} (h : rm.wf = true) (w : Width) (b0 : Byte) (reg : Key)
    (tail : List Byte) :
    resolveRM rm.mode rm.key w (b0 :: (rm.bytes reg ++ tail)) = rmOperand w rm := by
  rw [← rmOperand_decodeOperand]
  exact congrArg (rmOperand w) (decodeOperand_of_extraBytes h b0 _ tail)

theorem resolveRM_bytes_nil {rm : Rm} (h : rm.wf = true) (w : Width) (b0 : Byte) (reg : Key) :
    resolveRM rm.mode rm.key w (b0 :: rm.bytes reg) = rmOperand w rm := by
  simpa using resolveRM_bytes h w b0 reg []

/-- The immediate of family IRM stands after the extra bytes (R54, R106). -/
theorem byteAt_immediate (b0 : Byte) (x : Key) (rm : Rm) (imm : List Byte) (k : Nat) :
    byteAt (b0 :: (rm.bytes x ++ imm)) (2 + rm.extra + k) = byteAt imm k :=
  byteAt_append (xs := b0 :: rm.bytes x) (by simp [Rm.bytes]; omega)

/-! ### Family RM -/

/-- In family RM the record is some `f` of the operand that the instruction's own bytes spell and of its length. -/
theorem exec_result_rm {i : Instr} {rm : Rm} {b0 : Byte} {reg : Key} {w : Width} {s : State} {n : Nat}
    (f : Operand → Nat → Record) (henc : encode i = b0 :: rm.bytes reg) (hlen : i.length = 2 + rm.extra)
    (hrec : recordOf i = f (rmOperand w rm) (2 + rm.extra)) (hwf : rm.wf = true)
    (hrun : s.status = .run) (hle : s.cursor ≤ s.buf.len) (hn : n = 2 + extra rm.mode rm.key) :
    (encode i).length = n ∧
      (s.cursor + n ≤ s.buf.len → exec i s = .next { s with
        output := s.output ++ [.instr (f (resolveRM rm.mode rm.key w (encode i)) n)]
        cursor := s.cursor + n }) ∧
      (s.buf.len < s.cursor + n → RaisesTruncated s (exec i s)) := by
  rw [Rm.extra_eq hwf] at hn
  refine exec_result (hlen.trans hn.symm) ?_ hrun hle
  rw [hrec, henc, resolveRM_bytes_nil hwf, hn]

/-- Settles O16: d = 0, so the operand its bytes spell is the destination. -/
theorem movRm8R8Result : Obligations.MovRm8R8Result := by
  rintro rm reg s hwf hrun hle _ n rfl hn
  exact ⟨rfl, exec_result_rm (fun op n => ⟨.mov, op, .register (regName reg .byte), n⟩)
    rfl rfl rfl hwf hrun hle hn⟩

/-- Settles O17: as O16, at word width. -/
theorem movRm16R16Result : Obligations.MovRm16R16Result := by
  rintro rm reg s hwf hrun hle _ n rfl hn
  exact ⟨rfl, exec_result_rm (fun op n => ⟨.mov, op, .register (regName reg .word), n⟩)
    rfl rfl rfl hwf hrun hle hn⟩

/-- Settles O18: d = 1, so the operand its bytes spell is the source. -/
theorem movR8Rm8Result : Obligations.MovR8Rm8Result := by
  rintro reg rm s hwf hrun hle _ n rfl hn
  exact ⟨rfl, exec_result_rm (fun op n => ⟨.mov, .register (regName reg .byte), op, n⟩)
    rfl rfl rfl hwf hrun hle hn⟩

/-- Settles O19: as O18, at word width. -/
theorem movR16Rm16Result : Obligations.MovR16Rm16Result := by
  rintro reg rm s hwf hrun hle _ n rfl hn
  exact ⟨rfl, exec_result_rm (fun op n => ⟨.mov, .register (regName reg .word), op, n⟩)
    rfl rfl rfl hwf hrun hle hn⟩

/-! ### Family IR -/

/-- In family IR both presence checks ask for the full length (R84, R103). -/
theorem exec_truncated_of_firstCheck {i : Instr} {s : State} (hfirst : firstCheck i = i.length)
    (hrun : s.status = .run) (hle : s.cursor ≤ s.buf.len) (hshort : s.buf.len < s.cursor + i.length) :
    ∃ bytes, exec i s = .next (s.raise .truncatedInstruction bytes i.length) := by
  obtain ⟨bytes, need, hexec, hneed⟩ := exec_truncated hrun hle hshort
  obtain rfl : need = i.length := hneed.elim (·.trans hfirst) id
  exact ⟨bytes, hexec⟩

/-- Settles O20: the register table's byte names are in the order of the keys. -/
theorem movR8Imm8Result : Obligations.MovR8Imm8Result := by
  intro reg imm s hrun hle
  have hname : [RegName.al, .cl, .dl, .bl, .ah, .ch, .dh, .bh][reg.toNat]? = some (regName reg .byte) := by
    revert reg; decide
  have hlead : 0b10110#5 ++ reg = BitVec.ofNat 8 (0xB0 + reg.toNat) := by revert reg; decide
  exact ⟨_, hname, congrArg (fun b => [b, imm]) hlead,
    exec_completes (i := .movR8Imm8 reg imm) hrun,
    exec_truncated_of_firstCheck (i := .movR8Imm8 reg imm) rfl hrun hle⟩

/-- Settles O21: the register table's word names are in the order of the keys, and the high byte has the sign. -/
theorem movR16Imm16Result : Obligations.MovR16Imm16Result := by
  intro reg lo hi s hrun hle
  have hname : [RegName.ax, .cx, .dx, .bx, .sp, .bp, .si, .di][reg.toNat]? = some (regName reg .word) := by
    revert reg; decide
  have hlead : 0b10111#5 ++ reg = BitVec.ofNat 8 (0xB8 + reg.toNat) := by revert reg; decide
  refine ⟨_, hname, ?_, ?_, exec_truncated_of_firstCheck (i := .movR16Imm16 reg (le16 lo hi)) rfl hrun hle⟩
  · rw [encode, hlead, wordBytes_le16]
  · rw [← s16_le16]
    exact exec_completes (i := .movR16Imm16 reg (le16 lo hi)) hrun

/-! ### Family IRM -/

/-- Settles O22: the immediate is the byte after the extra bytes, and the ignored field is in no part of the
record. -/
theorem movRm8Imm8Result : Obligations.MovRm8Imm8Result := by
  rintro x rm imm s hwf hrun hle _ e rfl he
  rw [Rm.extra_eq hwf] at he
  subst he
  refine ⟨rfl, exec_result rfl ?_ hrun hle⟩
  have himm : byteAt (encode (.movRm8Imm8 x rm imm)) (2 + rm.extra) = imm :=
    byteAt_immediate 0xC6#8 x rm [imm] 0
  rw [himm, encode, resolveRM_bytes hwf]
  rfl

/-- Settles O23: as O22, with the two bytes after the extra bytes. -/
theorem movRm16Imm16Result : Obligations.MovRm16Imm16Result := by
  rintro x rm imm s hwf hrun hle _ e rfl he
  rw [Rm.extra_eq hwf] at he
  subst he
  refine ⟨rfl, exec_result rfl ?_ hrun hle⟩
  have hlow : byteAt (encode (.movRm16Imm16 x rm imm)) (2 + rm.extra) = lowByte imm :=
    byteAt_immediate 0xC7#8 x rm (wordBytes imm) 0
  have hhigh : byteAt (encode (.movRm16Imm16 x rm imm)) (3 + rm.extra) = highByte imm := by
    rw [show 3 + rm.extra = 2 + rm.extra + 1 by omega]
    exact byteAt_immediate 0xC7#8 x rm (wordBytes imm) 1
  rw [hlow, hhigh, le16_lowByte_highByte, encode, resolveRM_bytes hwf]
  rfl

/-! ### All eight -/

/-- Settles O24: completing an instruction emits and advances, and its two presence checks, the only other way it
goes, ask for no more than its length. -/
theorem movFrame : Obligations.MovFrame := by
  intro i s t h
  have hbuf := exec_next_buf h
  refine ⟨fun a => congrArg (Memory.read · a) hbuf, congrArg Memory.len hbuf, ?_⟩
  rw [exec_eq_retire] at h
  obtain ⟨hrun, win, hwin, hcases⟩ := retire_next_cases h
  rw [recordOf_length] at hcases
  have hshort (hlen : win.length < i.length) : s.buf.len < s.cursor + i.length := by
    have hsix := (Instr.length_bounds i).2
    have hle : s.cursor ≤ s.buf.len := by
      by_contra hout
      rw [State.window_eq_none (by omega)] at hwin
      cases hwin
    obtain rfl := Option.some.inj ((State.window_eq hle).symm.trans hwin)
    rw [List.length_take, State.length_remaining] at hlen
    omega
  rcases hcases with ⟨hmin, rfl⟩ | ⟨-, hfull, rfl⟩ | ⟨-, -, rfl⟩
  · exact .inr ⟨rfl, rfl, rfl, hshort (hmin.trans_le (firstCheck_le i))⟩
  · exact .inr ⟨rfl, rfl, rfl, hshort hfull⟩
  · exact .inl ⟨hrun, rfl, rfl, rfl⟩

/-- Settles O28: at mod = 00 and rm = 110 the operand is `direct` with the value at window offset 2. -/
theorem directAddressMode : Obligations.DirectAddressMode := by
  intro s b0 b1 lo hi rest hrun hlead hrem hmod hrm himm
  obtain ⟨r, hstep, hlen, hside⟩ := step_of_mem_rmLeadBytes hrun hlead hrem
    (decodeOperand_direct hmod hrm _) (by simp only [Rm.extra, List.length_cons]; omega)
  exact ⟨r, hstep, hlen, hside.trans (congrArg Operand.directMemory (le16_toNat lo hi))⟩

/-! ### Family RM: two encodings of one move, and the width (41_mov_rm_reg.md section 3) -/

/-- Settles O43: the record has the reg field on the side that d picks, and at mod = 11 both sides are registers of
one width. -/
theorem registerMoveAliases : Obligations.RegisterMoveAliases := by
  intro w a b
  have hdec (d : BitVec 1) (k reg : Key) := decode_encode_rmRegInstr d w (rm := .reg k) rfl reg []
  simp only [encode_rmRegInstr] at hdec
  refine ⟨rmRegInstr 0#1 w (.reg b) a, rmRegInstr 1#1 w (.reg a) b, ?_, hdec 0#1 b a, hdec 1#1 a b, ?_⟩
  · obtain rfl | rfl := BitVec.eq_zero_or_eq_one w <;> simp [rmRegInstr]
  · obtain rfl | rfl := BitVec.eq_zero_or_eq_one w <;> exact ⟨rfl, fun _ => rfl⟩

theorem regName_byte_ne_word (k : Key) : regName k .byte ≠ regName k .word := by
  revert k; decide

/-- A memory operand does not depend on the width (R102). -/
theorem rmOperand_byte_eq_word {rm : Rm} (h : rm.mode ≠ 0b11#2) :
    rmOperand .byte rm = rmOperand .word rm := by
  cases rm with
  | reg k => exact absurd rfl h
  | direct a => rfl
  | base k => rfl
  | disp8 k d => rfl
  | disp16 k d => rfl

/-- The two sides of a record of family RM, by the direction bit (R96). -/
theorem sides_rmRegInstr (d w : BitVec 1) (rm : Rm) (reg : Key) :
    regFieldSide d (recordOf (rmRegInstr d w rm reg)) = regOperand reg (widthOfBit (w == 1#1)) ∧
      rmFieldSide d (recordOf (rmRegInstr d w rm reg)) = rmOperand (widthOfBit (w == 1#1)) rm := by
  obtain rfl | rfl := BitVec.eq_zero_or_eq_one d <;> obtain rfl | rfl := BitVec.eq_zero_or_eq_one w <;>
    exact ⟨rfl, rfl⟩

/-- Settles O44: the width reaches the record only through the names of registers. -/
theorem widthOnlyNamesRegisters : Obligations.WidthOnlyNamesRegisters := by
  rintro d rm reg _ _ rfl rfl
  obtain ⟨hreg8, hrm8⟩ := sides_rmRegInstr d 0#1 rm reg
  obtain ⟨hreg16, hrm16⟩ := sides_rmRegInstr d 1#1 rm reg
  refine ⟨?_, hreg8, hreg16, regName_byte_ne_word reg, ?_, fun hmode => ?_⟩
  · rw [recordOf_length, recordOf_length, rmRegInstr_length, rmRegInstr_length]
  · rintro k rfl
    exact ⟨hrm8, hrm16, regName_byte_ne_word k⟩
  · have hsame := hrm8.trans ((rmOperand_byte_eq_word hmode).trans hrm16.symm)
    exact ⟨hsame, congrArg renderOp hsame⟩

end Sys2Proof.Machine
end

section
/-! Reset, the host's moves and the buffer's canonical form (10_state.md sections 2 and 5,
70_reset_and_hazards.md sections 1 and 2). -/

namespace Sys2Proof.Machine

/-! ### Reset and boot -/

/-- Reset gives the invariant over any buffer in canonical form. -/
theorem inv_assertReset {s : State} (h : s.buf.wf = true) : s.assertReset.Inv where
  buf_wf := h
  cursor_le := Nat.zero_le _
  output_ok := ⟨[], rfl, by simp, rfl⟩
  run_record := fun _ => rfl
  done_end := fun hs => nomatch hs
  fault_record := fun hs => nomatch hs

theorem inv_start (bs : List Byte) : (State.start bs).Inv :=
  inv_assertReset (s := State.start bs) (Memory.ofBytes_wf bs)

/-- Settles O45: the reset state is the start over the empty buffer. -/
theorem resetHoldsInvariant : Obligations.ResetHoldsInvariant :=
  inv_start []

theorem load_of_run {s : State} (hrun : s.status = .run) (bs : List Byte) : s.load bs = none :=
  Option.eq_none_iff_forall_ne_some.mpr fun _ h => (State.load_eq_some.mp h).1 hrun

/-- Settles O46: outside RUN a boot gives the start over its bytes; in RUN there is no load. -/
theorem bootHoldsInvariant : Obligations.BootHoldsInvariant := by
  refine ⟨fun bs s hs => ?_, fun bs s hrun => ⟨load_of_run hrun bs, ?_⟩, fun _ => inv_assertReset⟩
  · exact ⟨_, State.boot_eq_some.mpr ⟨hs, rfl⟩, rfl, inv_start bs, rfl, remaining_start bs⟩
  · rw [State.boot, load_of_run hrun, Option.map_none]

/-- Settles O53: a load is the one host move that writes the buffer, and RUN has none. -/
theorem resetSetsEverythingButTheBuffer : Obligations.ResetSetsEverythingButTheBuffer := by
  refine ⟨fun _ => rfl, rfl, fun _ => rfl, fun m s t hrun h => ?_, fun bs s hs => ?_⟩
  · cases m with
    | load bs => exact absurd hrun (State.load_eq_some.mp h).1
    | reset => exact ⟨rfl, (congrArg State.buf (Option.some.inj h)).symm⟩
  · exact State.load_eq_some.mpr ⟨hs, rfl⟩

/-- Settles O54: at reset the cursor is at L = 0, so the first step ends the run, and the header is all the
output. -/
theorem emptyBufferRun : Obligations.EmptyBufferRun :=
  ⟨_, step_at_end rfl rfl, rfl, rfl, rfl⟩

/-! ### The canonical form -/

/-- A canonical list of cells lists exactly the bytes that are read from it and are not the unlisted one. -/
theorem mem_iff_lookupCell {cs : List Host.Cell} (h : CellsOk cs) (c : Host.Cell) :
    c ∈ cs ↔ c.2 ≠ Memory.unlisted ∧ lookupCell cs c.1 = c.2 := by
  obtain ⟨hp, hn⟩ := h
  induction cs with
  | nil => simpa [lookupCell] using fun h => Ne.symm h
  | cons d cs ih =>
    obtain ⟨hd, hp'⟩ := List.pairwise_cons.mp hp
    have hnd := hn d (by simp)
    have ih := ih hp' fun x hx => hn x (by simp [hx])
    by_cases hcd : d.1 = c.1
    · have hout : c ∉ cs := fun hc => (hd c hc).ne hcd
      simp only [lookupCell, if_pos hcd, List.mem_cons, hout, or_false]
      constructor
      · rintro rfl
        exact ⟨hnd, rfl⟩
      · rintro ⟨-, hbyte⟩
        exact Prod.ext hcd.symm hbyte.symm
    · have hne : c ≠ d := fun h => hcd (h ▸ rfl)
      simp only [lookupCell, if_neg hcd, List.mem_cons, hne, false_or, ih]

/-- Canonical lists of cells that read alike everywhere have the same cells, in the one order there is. -/
theorem cells_eq_of_lookupCell_eq {cs ds : List Host.Cell} (hc : CellsOk cs) (hd : CellsOk ds)
    (h : ∀ a, lookupCell cs a = lookupCell ds a) : cs = ds := by
  have hirrefl : Std.Irrefl fun c d : Host.Cell => c.1 < d.1 := ⟨fun c => lt_irrefl c.1⟩
  have hantisymm : Std.Antisymm fun c d : Host.Cell => c.1 < d.1 :=
    ⟨fun _ _ hlt hgt => absurd hlt (Nat.lt_asymm hgt)⟩
  refine hc.1.eq_of_mem_iff hd.1 fun c => ?_
  rw [mem_iff_lookupCell hc, mem_iff_lookupCell hd, h]

theorem Memory.read_of_len_le {m : Memory} (h : m.wf = true) {a : Nat} (ha : m.len ≤ a) :
    m.read a = Memory.unlisted := by
  obtain ⟨hok, hlt⟩ := (Memory.wf_iff m).mp h
  by_contra hread
  have := hlt (a, m.read a) ((mem_iff_lookupCell hok _).mpr ⟨hread, rfl⟩)
  omega

/-- Settles O52: past L every canonical buffer reads as unlisted, so two that agree below L agree everywhere. -/
theorem equalBuffersAreEqualData : Obligations.EqualBuffersAreEqualData := by
  refine ⟨fun m n hm hn hlen hread => ?_, fun bs => ?_⟩
  · obtain ⟨hmok, -⟩ := (Memory.wf_iff m).mp hm
    obtain ⟨hnok, -⟩ := (Memory.wf_iff n).mp hn
    have hcells : m.cells = n.cells := cells_eq_of_lookupCell_eq hmok hnok fun a => by
      rcases Nat.lt_or_ge a m.len with ha | ha
      · exact hread a ha
      · exact (Memory.read_of_len_le hm ha).trans (Memory.read_of_len_le hn (hlen ▸ ha)).symm
    cases m
    cases n
    cases hlen
    cases hcells
    rfl
  · exact ⟨Memory.ofBytes bs, Memory.ofBytes_wf bs, rfl, Memory.read_ofBytes bs⟩

end Sys2Proof.Machine
end

section
/-! The text of numbers (30_encoding.md section 8). -/

namespace Sys2Proof.Machine

/-! ### Decimal digits -/

/-- Any fuel above the number gives all its digits. -/
theorem decDigits_eq_of_lt {f g n : Nat} (hf : n < f) (hg : n < g) : decDigits f n = decDigits g n := by
  induction f generalizing g n with
  | zero => omega
  | succ f ih =>
    obtain ⟨g, rfl⟩ : ∃ k, g = k + 1 := ⟨g - 1, by omega⟩
    by_cases hn : n < 10
    · simp only [decDigits, if_pos hn]
    · simp only [decDigits, if_neg hn]
      rw [ih (n := n / 10) (g := g) (by omega) (by omega)]

theorem dec_of_lt {n : Nat} (h : n < 10) : dec n = [digitChar n] := by
  simp only [dec, decDigits, if_pos h]

theorem dec_of_le {n : Nat} (h : 10 ≤ n) : dec n = dec (n / 10) ++ [digitChar (n % 10)] := by
  simp only [dec, decDigits, if_neg (Nat.not_lt.mpr h)]
  rw [decDigits_eq_of_lt (g := n / 10 + 1) (by omega) (by omega), decDigits]

/-- A property of all digit texts holds where it holds of one digit and of a text with a digit after it. -/
theorem dec_induction {P : Nat → Text → Prop} (hone : ∀ n < 10, P n [digitChar n])
    (hmore : ∀ n ds, 0 < n → ∀ d < 10, P n ds → P (10 * n + d) (ds ++ [digitChar d])) (n : Nat) :
    P n (dec n) := by
  induction n using Nat.strong_induction_on with
  | _ n ih =>
    rcases Nat.lt_or_ge n 10 with hlt | hle
    · rw [dec_of_lt hlt]
      exact hone n hlt
    · have h := hmore (n / 10) _ (by omega) (n % 10) (by omega) (ih (n / 10) (by omega))
      rwa [← dec_of_le hle, Nat.div_add_mod] at h

theorem digitChar_toNat : ∀ d < 10, (digitChar d).toNat - 48 = d := by decide

theorem digitChar_mem : ∀ d < 10, '0' ≤ digitChar d ∧ digitChar d ≤ '9' := by decide

theorem readDec_append_digit (ds : Text) (c : Char) :
    readDec (ds ++ [c]) = 10 * readDec ds + (c.toNat - 48) := by
  simp [readDec]

/-- A number's text spells it (R78). -/
theorem readDec_dec (n : Nat) : readDec (dec n) = n := by
  refine dec_induction (P := fun n ds => readDec ds = n) (fun d hd => ?_) (fun n ds _ d hd h => ?_) n
  · simpa [readDec] using digitChar_toNat d hd
  · rw [readDec_append_digit, h, digitChar_toNat d hd]

theorem dec_digits (n : Nat) : ∀ c ∈ dec n, '0' ≤ c ∧ c ≤ '9' := by
  refine dec_induction (P := fun _ ds => ∀ c ∈ ds, '0' ≤ c ∧ c ≤ '9') (fun d hd => ?_)
    (fun _ ds _ d hd h => ?_) n
  · simpa using digitChar_mem d hd
  · intro c hc
    rcases List.mem_append.mp hc with hc | hc
    · exact h c hc
    · exact List.mem_singleton.mp hc ▸ digitChar_mem d hd

/-- Only 0 has a text that begins with 0. -/
theorem head_dec (n : Nat) : ∃ c, (dec n).head? = some c ∧ (c = '0' → n = 0) := by
  have hzero : ∀ d < 10, digitChar d = '0' → d = 0 := by decide
  refine dec_induction (P := fun n ds => ∃ c, ds.head? = some c ∧ (c = '0' → n = 0))
    (fun d hd => ⟨_, rfl, hzero d hd⟩) (fun n ds hn d _ h => ?_) n
  obtain ⟨c, hc, himp⟩ := h
  exact ⟨c, by simp [hc], fun h0 => by have := himp h0; omega⟩

theorem dec_injective : Function.Injective dec :=
  Function.LeftInverse.injective readDec_dec

/-! ### Signed numbers -/

theorem readInt_dec (n : Nat) : readInt (dec n) = n := by
  obtain ⟨c, hc, -⟩ := head_dec n
  obtain ⟨ds, hds⟩ := List.head?_eq_some_iff.mp hc
  have hne : c ≠ '-' := by
    rintro rfl
    exact absurd (dec_digits n '-' (by simp [hds])).1 (by decide)
  conv_rhs => rw [← readDec_dec n]
  rw [hds]
  simp [readInt, hne]

theorem decs_of_neg {v : Int} (h : v < 0) : decs v = '-' :: dec (-v).toNat := by
  rw [decs, if_pos h, show v.natAbs = (-v).toNat by omega]

theorem decs_of_nonneg {v : Int} (h : 0 ≤ v) : decs v = dec v.toNat := by
  rw [decs, if_neg (Int.not_lt.mpr h), show v.natAbs = v.toNat by omega]

/-- A signed number's text spells it (R78). -/
theorem readInt_decs (v : Int) : readInt (decs v) = v := by
  rcases lt_or_ge v 0 with hneg | hpos
  · rw [decs_of_neg hneg, readInt, readDec_dec]
    omega
  · rw [decs_of_nonneg hpos, readInt_dec]
    omega

theorem decs_injective : Function.Injective decs :=
  Function.LeftInverse.injective readInt_decs

/-- Settles O59: the digits read back, and a text that reads back is no other number's. -/
theorem decimalText : Obligations.DecimalText := by
  refine ⟨fun n => ?_, fun v => ⟨decs_of_neg, decs_of_nonneg, readInt_decs v, fun _ => @decs_injective _ _⟩⟩
  obtain ⟨c, hc, hzero⟩ := head_dec n
  refine ⟨readDec_dec n, ?_, dec_digits n, fun h0 => ?_, fun _ => @dec_injective _ _⟩
  · intro hnil
    rw [hnil] at hc
    cases hc
  · obtain rfl := hzero (Option.some.inj (hc.symm.trans h0))
    exact ⟨rfl, rfl⟩

/-- Settles O58: a term is the sign and the magnitude's digits, and 0 has none. -/
theorem displacementReadsBack : Obligations.DisplacementReadsBack := by
  intro disp
  rw [dispTerm_eq]
  rcases lt_trichotomy disp 0 with hneg | rfl | hpos
  · rw [if_neg (by omega), if_pos hneg]
    refine ⟨?_, by simp; omega⟩
    show some (-(readDec (dec (-disp).toNat) : Int)) = some disp
    rw [readDec_dec]
    exact congrArg some (by omega)
  · exact ⟨rfl, by simp⟩
  · rw [if_pos hpos]
    refine ⟨?_, by simp; omega⟩
    show some (readDec (dec disp.toNat) : Int) = some disp
    rw [readDec_dec]
    exact congrArg some (by omega)

end Sys2Proof.Machine
end

section
/-! Fixed tables and words of the spec (10_state.md section 6, 30_encoding.md sections 2 and 3,
95_test_vectors.md). -/

namespace Sys2Proof.Machine

/-- Settles O6: eight words, decoded one by one. -/
theorem wordsOfEachRowDecode : Obligations.WordsOfEachRowDecode := by
  refine ⟨?_, ?_, ?_, ?_, ?_, ?_, ?_, ?_⟩ <;> decide

/-- Settles O9: each of the 256 lead bytes, against the table. -/
theorem acceptedLeadBytes : Obligations.AcceptedLeadBytes := by
  constructor <;> decide

/-- Settles O25: each of the eight keys, at both widths. -/
theorem constantTables : Obligations.ConstantTables := by
  refine ⟨?_, ?_, ?_, ?_, ?_⟩ <;> decide

/-- Settles O60: ten lines, rendered one by one. -/
theorem workedExamples : Obligations.WorkedExamples := by
  refine ⟨?_, ?_, ?_, ?_, ?_, ?_, ?_, ?_, ?_, ?_⟩ <;> decide

end Sys2Proof.Machine
end
